-- ==== Sys2Proof/Word.lean ====
section
/-! DEFINITION. The two word types of the block: the byte of the buffer, the patterns and the component
stream (R11), and the 32-bit word of the host register window (R35). -/

namespace Sys2Proof

/-- A byte: bit 7 is the most significant, bit 0 the least (R11). -/
abbrev Byte := BitVec 8

/-- A host register or command word (R35, R70). -/
abbrev Word := BitVec 32

end Sys2Proof
end

