-- ==== Sys2Proof/Config.lean ====
section
/-! DEFINITION. The configuration `CFG` of one block instance (R8): a record fixed for the lifetime of the instance.
Every parameter the spec leaves OPEN is a field, so a statement about every state holds for every value of it. -/

namespace Sys2Proof

/-- `PAT_MODE`: how INIT obtains the patterns (R8). -/
inductive PatMode where
  /-- the configured constants are the patterns (R105) -/
  | const
  /-- the patterns are derived from the bit period and the target high times (R103) -/
  | derive
  deriving DecidableEq, Repr

/-- The configuration record of R8. No command and no step writes it. The unit `TICK` of `holdoff`, `startupDelay`
and the clock is the reader's: those fields count ticks. -/
structure Config where
  /-- `N`: bytes of one protocol-bit pattern -/
  n : Nat
  /-- `PAT_MODE` -/
  patMode : PatMode
  /-- `ONE_CONST`, used in `CONST` mode -/
  oneConst : List Byte
  /-- `ZERO_CONST`, used in `CONST` mode -/
  zeroConst : List Byte
  /-- `BIT_PERIOD` -/
  bitPeriod : Nat
  /-- `T_HIGH_ONE` -/
  tHighOne : Nat
  /-- `T_HIGH_ZERO` -/
  tHighZero : Nat
  /-- `TOL` -/
  tol : Nat
  /-- `LEAD`: the leading framing bytes -/
  lead : List Byte
  /-- `TRAIL`: the trailing framing bytes -/
  trail : List Byte
  /-- `MAX_LEDS` -/
  maxLeds : Nat
  /-- `BUF_BYTES` -/
  bufBytes : Nat
  /-- `HOLDOFF`, in ticks -/
  holdoff : Nat
  /-- `STARTUP_DELAY`, in ticks -/
  startupDelay : Nat
  /-- the value `maxRefreshRateFn(CFG)` (R8, R153, D26): the function is OPEN and is only ever applied to the
  instance's own configuration, so its value is the parameter (DESIGN CHOICE, safe, log entry 2) -/
  maxRefreshRate : Word
  /-- `REG_BASE`: where the platform puts the 16-byte register window (R50, R61) -/
  regBase : Nat
  deriving DecidableEq, Repr

/-- Variant V1 (R3): `N = 1`, constant patterns `[0xFC]` and `[0xC0]`, one `0x00` framing byte each side. The
remaining parameters are OPEN and are arguments. -/
def Config.v1 (maxLeds bufBytes holdoff startupDelay : Nat) (maxRefreshRate : Word)
    (bitPeriod tHighOne tHighZero tol regBase : Nat) : Config where
  n := 1
  patMode := .const
  oneConst := [0xFC]
  zeroConst := [0xC0]
  bitPeriod := bitPeriod
  tHighOne := tHighOne
  tHighZero := tHighZero
  tol := tol
  lead := [0x00]
  trail := [0x00]
  maxLeds := maxLeds
  bufBytes := bufBytes
  holdoff := holdoff
  startupDelay := startupDelay
  maxRefreshRate := maxRefreshRate
  regBase := regBase

/-- Variant V3 (R4): variant V1's record (R2: "otherwise structurally identical") with `N = 3` and the OPEN
parameters `V3_ONE`, `V3_ZERO`, `V3_LEAD`, `V3_TRAIL`; its `PAT_MODE` is a parameter too (R8). -/
def Config.v3 (base : Config) (patMode : PatMode) (v3One v3Zero v3Lead v3Trail : List Byte) : Config :=
  { base with
    n := 3
    patMode := patMode
    oneConst := v3One
    zeroConst := v3Zero
    lead := v3Lead
    trail := v3Trail }

/-- DESIGN CHOICE (log entry 3, unsafe): the instance `State.reset` stands for. It is V1 with the test configuration
PV1 of 95_test_vectors.md section 10 for the OPEN parameters `MAX_LEDS`, `BUF_BYTES`, `HOLDOFF`, `STARTUP_DELAY` and
`maxRefreshRateFn`, row B1 of its section 3 for `BIT_PERIOD`, the targets and `TOL`, and window base 0. -/
def Config.v1Default : Config := Config.v1 2 50 50 0 400 156 900 300 150 0

end Sys2Proof
end

