-- ==== Sys2Proof/Syntax.lean ====
section
/-! DEFINITION. The commands of the block: one constructor per row of spec/opcode_table.json (R72). -/

namespace Sys2Proof

/-- A legal command. The field types are the operand widths of R70 and R71 (`NLEDS` 20 bits, `SCALE` 8 bits, both
unsigned), so every term is a command some word encodes. `showFrame` is SHOW: the plain word is reserved in Lean. -/
inductive Instr where
  /-- INIT: build the pattern table, check the configuration, start the peripheral (R107). -/
  | init
  /-- SHOW nLeds, scale: encode and transmit the color layer's stream (R142). -/
  | showFrame (nLeds : BitVec 20) (scale : BitVec 8)
  /-- CLEAR nLeds: encode and transmit an all-zero frame (R143). -/
  | clear (nLeds : BitVec 20)
  /-- MAXRATE: report the maximum refresh rate (R153). -/
  | maxRate
  deriving DecidableEq, Repr

end Sys2Proof
end

