-- ==== Sys2Proof/WellFormed.lean ====
section
/-! DEFINITION. Well-formed configurations (R10, D41). A command needs no check of its own: the field types of `Instr`
are exactly the operand ranges of R71, so every `Instr` is well-formed; the range check of a command's text (R77) is
in Machine/Assembler.lean. -/

namespace Sys2Proof

/-- R10's condition on the pattern sources: in `CONST` mode both constants have N bytes, in `DERIVE` mode the bit
period is positive. -/
def Config.patternsWellFormed (c : Config) : Bool :=
  match c.patMode with
  | .const => c.oneConst.length == c.n && c.zeroConst.length == c.n
  | .derive => decide (0 < c.bitPeriod)

/-- R10: the configurations a model takes. The machine refuses any other before a step (I26). -/
def Config.wellFormed (c : Config) : Bool :=
  decide (1 ≤ c.n) && c.patternsWellFormed && decide (c.bufBytes < 2 ^ 32)

end Sys2Proof
end

