-- ==== Sys2Proof/Decode.lean ====
section
/-! DEFINITION. The decoder and the encoder of the 32-bit command word (R70 to R76), both written from the tables of
30_encoding.md. The decoder is total and rejects a word by name. -/

namespace Sys2Proof

/-- Why a word is ILLEGAL (R74). Both kinds have the one effect of R74; the name says which clause holds. -/
inductive Reject where
  /-- an opcode 0x0 or 0x5 to 0xF -/
  | reservedOpcode (op : BitVec 4)
  /-- a defined opcode with a nonzero field marked "0" -/
  | reservedField (op : BitVec 4)
  deriving DecidableEq, Repr

/-- What a command word decodes to: a command, or ILLEGAL with the clause of R74. -/
abbrev Decoded := Except Reject Instr

/-- `OP`, bits 3:0 (R70). -/
def opField (w : Word) : BitVec 4 := w.extractLsb' 0 4

/-- `SCALE`, bits 11:4 (R70). -/
def scaleField (w : Word) : BitVec 8 := w.extractLsb' 4 8

/-- `NLEDS`, bits 31:12 (R70). -/
def nLedsField (w : Word) : BitVec 20 := w.extractLsb' 12 20

/-- The clause of R74 an illegal word falls under. -/
def rejectReason (w : Word) : Reject :=
  if opField w = 0x1 ∨ opField w = 0x3 ∨ opField w = 0x4 then .reservedField (opField w)
  else .reservedOpcode (opField w)

/-- The decoder of R76, total on every word. -/
def decode (w : Word) : Decoded :=
  if w = 0x00000001 then .ok .init
  else if opField w = 0x2 then .ok (.showFrame (nLedsField w) (scaleField w))
  else if w.extractLsb' 0 12 = (0x003 : BitVec 12) then .ok (.clear (nLedsField w))
  else if w = 0x00000004 then .ok .maxRate
  else .error (rejectReason w)

/-- The word of format C (R70) with the three fields given. -/
def formatC (nLeds : BitVec 20) (scale : BitVec 8) (op : BitVec 4) : Word := nLeds ++ scale ++ op

/-- The word of a command (R73, R77). -/
def encode : Instr → Word
  | .init => formatC 0 0 0x1
  | .showFrame nLeds scale => formatC nLeds scale 0x2
  | .clear nLeds => formatC nLeds 0 0x3
  | .maxRate => formatC 0 0 0x4

/-- One row of R73's table: a word `w` matches it when `w &&& mask = pattern`. -/
structure OpcodeRow where
  pattern : Word
  mask : Word
  deriving DecidableEq, Repr

/-- "A word matches a mnemonic when `(w & mask) = match`" (R73). -/
def OpcodeRow.matches (r : OpcodeRow) (w : Word) : Bool := (w &&& r.mask) == r.pattern

/-- R73's row of a command. -/
def opcodeRow : Instr → OpcodeRow
  | .init => { pattern := 0x00000001, mask := 0xFFFFFFFF }
  | .showFrame _ _ => { pattern := 0x00000002, mask := 0x0000000F }
  | .clear _ => { pattern := 0x00000003, mask := 0x00000FFF }
  | .maxRate => { pattern := 0x00000004, mask := 0xFFFFFFFF }

/-- The four rows of R73, in its order. -/
def opcodeRows : List OpcodeRow :=
  [opcodeRow .init, opcodeRow (.showFrame 0 0), opcodeRow (.clear 0), opcodeRow .maxRate]

/-- The command word of `nbits` bits `w`, the bits above them zero. -/
def tableWord (nbits w : Nat) : Word := BitVec.ofNat 32 (w % 2 ^ nbits)

/-- The instruction the decoder reads from a table word. A command is one 32-bit word (R75), so it has no byte order
(R57) and bit k of the table is bit k of the word. -/
def decodeTableWord (nbits w : Nat) : Option Instr :=
  match decode (tableWord nbits w) with
  | .ok i => some i
  | .error _ => none

end Sys2Proof
end

