-- ==== Sys2Proof/Machine/State.lean ====
section
/-! DEFINITION. The state of the machine as plain data: the block's registers (10_state.md), the state outside the
block the model keeps (R33), and the inputs the other agents bring (R7, R203). -/

namespace Sys2Proof.Machine

/-- `st`, the sequencer state (R22). The values 6 and 7 are never taken: they have no constructor. -/
inductive SeqState where
  | unconfigured
  | idle
  | encoding
  | transmitting
  | cooldown
  | cfgError
  deriving DecidableEq, Repr

/-- The error codes of R200. The reserved codes 8 to 15 are never produced: they have no constructor. -/
inductive ErrCode where
  | ok
  | illegal
  | state
  | unusable
  | cfgPattern
  | cfgCapacity
  | overrun
  | transfer
  deriving DecidableEq, Repr

/-- The registers `PT_ONE` and `PT_ZERO` (R23). They get their values together, by one successful INIT. -/
structure PatternTable where
  one : List Byte
  zero : List Byte
  deriving DecidableEq, Repr

/-- `REQ_KIND` (R27). -/
inductive ReqKind where
  | showFrame
  | clear
  deriving DecidableEq, Repr

/-- The request registers `REQ_KIND`, `REQ_N`, `REQ_SCALE` (R27), latched together at acceptance. -/
structure Request where
  kind : ReqKind
  n : BitVec 20
  scale : BitVec 8
  deriving DecidableEq, Repr

/-- The outcome of a transfer record (R34). -/
inductive TxOutcome where
  | pending
  | done
  | failed
  deriving DecidableEq, Repr

/-- One record of the transfer log: the exact bytes handed to `Send`, and the outcome (R34). -/
structure TxRecord where
  bytes : List Byte
  outcome : TxOutcome
  deriving DecidableEq, Repr

/-- The buffer as a list of written cells, addresses strictly rising. A cell that is not listed has no value (R25). -/
abbrev Memory := List Host.Cell

/-- The model's fault mark (R13, R33): raised at the pixel the stream was short for; no step clears it. -/
inductive FaultMark where
  | streamUnderrun (pixel : Nat)
  deriving DecidableEq, Repr

/-- The direction of a host register access. -/
inductive AccessKind where
  | read
  | write
  deriving DecidableEq, Repr

/-- A host access to the register window: its direction, platform address, width in bits, and data (for a write). -/
structure Access where
  kind : AccessKind
  addr : Nat
  bits : Nat
  data : Word
  deriving DecidableEq, Repr

/-- One event: a step of one agent (R7). The model takes one event a step, and the order among the enabled ones is
free (R203, D43): the schedule in State names it. -/
inductive Event where
  /-- the host reads or writes the register window (R35, R60) -/
  | host (a : Access)
  /-- the block accepts the k-th of the words held at CMD, if it is ready for it (R140, R245) -/
  | accept (k : Nat)
  /-- the block ends COOLDOWN, if the deadline has come (R149) -/
  | endCooldown
  /-- the block's ENCODING step (R120) -/
  | encode
  /-- the color layer settles the stream it will hand over at the next accepted SHOW (R53, R145) -/
  | colorLayer (stream : List Byte)
  /-- the peripheral signals completion (R150) -/
  | transferDone
  /-- the peripheral reports a failure (R151) -/
  | transferFailed
  /-- the clock advances (R158) -/
  | clock (ticks : Nat)
  /-- reset, from outside the block (R240) -/
  | reset
  deriving DecidableEq, Repr

/-- The whole state. -/
structure State where
  /-- `CFG` (R8): the instance's parameters. Not state of the block; no step writes it (DESIGN CHOICE,
  safe, log entry 1). -/
  cfg : Config
  /-- `st` (R22) -/
  st : SeqState
  /-- `PT_ONE`, `PT_ZERO` (R23): `none` is the spec's "no value" (log entry 4) -/
  pt : Option PatternTable
  /-- `Buf` (R25) -/
  buf : Memory
  /-- `REQ_KIND`, `REQ_N`, `REQ_SCALE` (R27): `none` is the spec's "no value" (log entry 4) -/
  req : Option Request
  /-- `XFER_LEN` (R28) -/
  xferLen : BitVec 32
  /-- `deadline` (R29) -/
  deadline : Nat
  /-- `ERR` (R30) -/
  err : ErrCode
  /-- `RESULT` (R30) -/
  result : BitVec 32
  /-- `RESP_SEQ` (R30) -/
  respSeq : BitVec 16
  /-- `CONTENT_LEN` (R31) -/
  contentLen : BitVec 32
  /-- `PERIPH_STARTED` (R32) -/
  periphStarted : Bool
  /-- the command words held at CMD, one per write that has not completed, oldest first (R35, R140, R245;
  DESIGN CHOICE, safe, log entry 7) -/
  held : List Word
  /-- `now`, the clock (R33) -/
  now : Nat
  /-- `INFLIGHT`, the peripheral's transfer (R33) -/
  inflight : Option (List Byte)
  /-- `S`, the component stream (R33, R53); its start value is the model's (log entry 21) -/
  stream : List Byte
  /-- the stream's read cursor `pos` (R33, R53); its start value is the model's (log entry 21) -/
  pos : Nat
  /-- `TXLOG` (R34) -/
  txlog : List TxRecord
  /-- `FAULT`, the model's fault mark (R33) -/
  fault : Option FaultMark
  /-- model's own: the events still to come, the next one first (R203; DESIGN CHOICE, log entry 5) -/
  schedule : List Event
  /-- model's own: the stream the color layer will hand over at the next accepted SHOW (R145; DESIGN CHOICE,
  log entry 8) -/
  offer : List Byte
  /-- model's own: the value the host's last register read returned, if there was one (R59; DESIGN CHOICE, log entry
  12) -/
  readData : Option Word
  deriving DecidableEq, Repr

/-- Why the machine stops with a fault. -/
inductive Fault where
  /-- FAULT_STREAM_UNDERRUN(p) (R124): a block step was asked for after the mark was raised; there is no further block
  step (R154). Raised by every block event of a marked state. Safe: nothing is claimed beyond the fault (R201). -/
  | streamUnderrun (pixel : Nat)
  /-- A read of a buffer cell that has no value (I12). Raised by `Send`. Safe, and never reached under the invariant
  (R55). -/
  | unwrittenCell (offset : Nat)
  /-- A frame that does not fit the `BUF_BYTES` cells that exist (R51). Raised by the ENCODING step. Safe, and never
  reached under the invariant. -/
  | outsideBuffer (length : Nat)
  /-- The ENCODING step with no pattern table (R23). Safe, and never reached under the invariant. -/
  | noPatternTable
  /-- The ENCODING step with no request (R27). Safe, and never reached under the invariant. -/
  | noRequest
  deriving DecidableEq, Repr

/-- Why the machine refuses a step. -/
inductive Refusal where
  /-- An instruction with no meaning yet. Raised by `exec`. Safe. -/
  | notModelled (mnemonic : String)
  /-- A register access the spec does not define (R60, I22). Raised by the host's event. Safe. -/
  | undefinedAccess
  /-- An ill-formed configuration (R10, I26). Raised by `step` before anything else. Safe. -/
  | illFormedConfig
  deriving DecidableEq, Repr

/-- The answer of a step. -/
abbrev Answer := Host.Outcome State Fault Refusal

/-- The machine at its start with the configuration `c`: every block register at the reset value of 10_state.md, and the
state outside the block at the start value of R33. -/
def State.resetWith (c : Config) : State where
  cfg := c
  st := .unconfigured
  pt := none
  buf := []
  req := none
  xferLen := 0
  deadline := 0
  err := .ok
  result := 0
  respSeq := 0
  contentLen := 0
  periphStarted := false
  held := []
  now := 0
  inflight := none
  stream := []
  pos := 0
  txlog := []
  fault := none
  schedule := []
  offer := []
  readData := none

/-- The machine right after reset: the instance of log entry 3 at its start. -/
def State.reset : State := State.resetWith Config.v1Default

end Sys2Proof.Machine
end

