-- ==== Sys2Proof/Machine/Operands.lean ====
section
/-! DEFINITION. The derived sizes of R9 and the operands of a command as the rules use them (R71). -/

namespace Sys2Proof.Machine

/-- `FRAMING` (R9): the framing bytes of a frame. -/
def framing (c : Config) : Nat := c.lead.length + c.trail.length

/-- `CONTENT(n)` (R9): the content bytes of an n-pixel frame, "`maxLeds × 3 channels × 8 bits × N bytes-per-bit`". -/
def content (c : Config) (n : Nat) : Nat := n * 3 * 8 * c.n

/-- `XLEN(n)` (R9): the transfer length of an n-pixel frame. -/
def xlen (c : Config) (n : Nat) : Nat := c.lead.length + content c n + c.trail.length

/-- `REQ` (R9): the buffer capacity the configuration needs. -/
def required (c : Config) : Nat := xlen c c.maxLeds

/-- `nLeds = zext_32(NLEDS)` (R71), as the count the rules compare with `MAX_LEDS`. -/
def ledCount (nLeds : BitVec 20) : Nat := nLeds.toNat

/-- `REQ_N` as the pixel count of the frame (R120). -/
def Request.pixels (r : Request) : Nat := ledCount r.n

end Sys2Proof.Machine
end

