-- ==== Sys2Proof/Machine/Flags.lean ====
section
/-! DEFINITION. The status the block sets and shows: the codes of R22 and R200, READY, the STATUS word (R36) and the
readable registers (R35, R37). The block has no condition codes (R30). -/

namespace Sys2Proof.Machine

/-- The value of `st` in STATUS.STATE (R22). -/
def SeqState.code : SeqState → BitVec 3
  | .unconfigured => 0
  | .idle => 1
  | .encoding => 2
  | .transmitting => 3
  | .cooldown => 4
  | .cfgError => 5

/-- The value of an error code in STATUS.ERR (R200). -/
def ErrCode.code : ErrCode → BitVec 4
  | .ok => 0
  | .illegal => 1
  | .state => 2
  | .unusable => 3
  | .cfgPattern => 4
  | .cfgCapacity => 5
  | .overrun => 6
  | .transfer => 7

/-- STATUS.READY (R36): every command is accepted at once. -/
def SeqState.readyBit : SeqState → Bool
  | .unconfigured | .idle | .cfgError => true
  | .encoding | .transmitting | .cooldown => false

/-- The block is usable: INIT succeeded and the block is not in CFG_ERROR (R141, glossary). -/
def SeqState.usable : SeqState → Bool
  | .idle | .encoding | .transmitting | .cooldown => true
  | .unconfigured | .cfgError => false

/-- The STATUS word (R36): reserved 31:24, RESP_SEQ 23:8, ERR 7:4, READY 3, STATE 2:0. -/
def statusWord (s : State) : Word :=
  (0 : BitVec 8) ++ s.respSeq ++ s.err.code ++ BitVec.ofBool s.st.readyBit ++ s.st.code

/-- The value of the readable register at a window offset (R35); `none` where a read has no meaning (R60). -/
def readableRegister (s : State) (offset : Nat) : Option Word :=
  if offset = 0x04 then some (statusWord s)
  else if offset = 0x08 then some s.result
  else if offset = 0x0C then some s.contentLen
  else none

end Sys2Proof.Machine
end

