-- ==== Sys2Proof/Machine/Ops.lean ====
section
/-! DEFINITION. The named operations over the buffer and the registers: `MemRead` and `MemWrite`, the gate of command
acceptance (R140), the one way a command ends (`respond`, R204), the transfer (R147 to R151), the timer (R149), the
clock (R158) and reset (R240). The block has no exception entry or return (R205, R206): `respond` stands in their place. -/

namespace Sys2Proof.Machine

/-! ### The buffer -/

/-- `MemRead(i, 1)` (R12): the byte of cell i, `none` where the cell has no value (R25). -/
def Memory.read : Memory → Nat → Option Byte
  | [], _ => none
  | (a, v) :: rest, i => if a = i then some v else Memory.read rest i

/-- `MemWrite(i, 1, v)` (R51): set cell i, keeping the addresses strictly rising. -/
def Memory.write : Memory → Nat → Byte → Memory
  | [], i, v => [(i, v)]
  | (a, w) :: rest, i, v =>
    if a < i then (a, w) :: Memory.write rest i v
    else if a = i then (i, v) :: rest
    else (i, v) :: (a, w) :: rest

/-- Every address of the list is above `low`, and the addresses strictly rise. -/
def Memory.risesAbove : Nat → Memory → Bool
  | _, [] => true
  | low, (a, _) :: rest => decide (low < a) && Memory.risesAbove a rest

/-- The canonical form: addresses strictly rising. No cell has a value unless it was written, so no entry can equal what
an unlisted cell reads as. -/
def Memory.wf : Memory → Bool
  | [] => true
  | (a, _) :: rest => Memory.risesAbove a rest

/-- `[MemRead(i,1), ..., MemRead(i+len-1,1)]` (R55): the bytes, or the first cell that has no value. -/
def Memory.readRange (m : Memory) : (i len : Nat) → Except Nat (List Byte)
  | _, 0 => .ok []
  | i, len + 1 =>
    match Memory.read m i with
    | none => .error i
    | some v =>
      match Memory.readRange m (i + 1) len with
      | .ok vs => .ok (v :: vs)
      | .error e => .error e

/-! ### Responses -/

/-- `respond(err, result)` (R204): how every command ends. `RESP_SEQ` counts modulo 2^16. -/
def respond (s : State) (err : ErrCode) (result : BitVec 32) : State :=
  { s with err := err, result := result, respSeq := s.respSeq + 1 }

/-- `raise <Error>` of R12 for a hardware error: `respond(<Error>, 0)`. -/
def raiseError (s : State) (err : ErrCode) : State := respond s err 0

/-! ### Command acceptance -/

/-- Is the decoded word a SHOW or a CLEAR? -/
def isFrameCommand : Decoded → Bool
  | .ok (.showFrame _ _) | .ok (.clear _) => true
  | .ok .init | .ok .maxRate | .error _ => false

/-- `ready(st, d)` (R140). -/
def ready (st : SeqState) (d : Decoded) : Bool :=
  match st with
  | .encoding | .transmitting => false
  | .cooldown => !isFrameCommand d
  | .unconfigured | .idle | .cfgError => true

/-- Perform the rule of the command `d` where the block is ready for it; otherwise the command is held and nothing
happens (R140). -/
def whenReady (s : State) (d : Decoded) (rule : State → Answer) : Answer :=
  if ready s.st d then rule s else .next s

/-- The usability check of R141: where the block is not usable the command only responds `ERR_UNUSABLE`. -/
def whenUsable (s : State) (rule : State → Answer) : Answer :=
  if s.st = .unconfigured ∨ s.st = .cfgError then .next (raiseError s .unusable) else rule s

/-- The overrun check of R144, before anything is written. -/
def whenFits (s : State) (nLeds : BitVec 20) (rule : State → Answer) : Answer :=
  if s.cfg.maxLeds < ledCount nLeds then .next (raiseError s .overrun) else rule s

/-- The host's write of the k-th held word completes when the block is ready for the word (R140): it leaves CMD. -/
def releaseHeld (s : State) (k : Nat) (d : Decoded) : State :=
  if ready s.st d then { s with held := s.held.eraseIdx k } else s

/-! ### INIT's effects -/

/-- `PeriphStart()` (R108): the model records that the peripheral's `start` was issued. -/
def periphStart (s : State) : State := { s with periphStarted := true }

/-- Enter CFG_ERROR; nothing else is touched (R107). -/
def enterCfgError (s : State) : State := { s with st := .cfgError }

/-- The effects of a successful INIT before its response (R107). -/
def configureBlock (s : State) (pt : PatternTable) : State :=
  { periphStart { s with pt := some pt } with
    deadline := s.now + s.cfg.startupDelay
    st := .cooldown }

/-! ### The frame -/

/-- SHOW latches its request, takes the color layer's stream and enters ENCODING (R142, R145). -/
def latchShow (s : State) (nLeds : BitVec 20) (scale : BitVec 8) : State :=
  { s with
    req := some { kind := .showFrame, n := nLeds, scale := scale }
    stream := s.offer
    pos := 0
    st := .encoding }

/-- CLEAR latches its request and enters ENCODING; it asks for no stream (R143). -/
def latchClear (s : State) (nLeds : BitVec 20) : State :=
  { s with
    req := some { kind := .clear, n := nLeds, scale := 0 }
    st := .encoding }

/-- `Send(len)` (R147): the peripheral receives `Buf[0 .. len-1]`, and the log gets the pending record. -/
def send (s : State) (len : Nat) : Answer :=
  match Memory.readRange s.buf 0 len with
  | .ok bytes =>
    .next { s with
      inflight := some bytes
      txlog := s.txlog ++ [{ bytes := bytes, outcome := .pending }]
      st := .transmitting }
  | .error cell => .fault (.unwrittenCell cell)

/-- A frame of no bytes (R148): no `Send`, the timer is armed and the command responds at once. -/
def finishEmptyFrame (s : State) : State :=
  respond { s with deadline := s.now + s.cfg.holdoff, st := .cooldown } .ok 0

/-- Set the outcome of the last record of the log. -/
def setLastOutcome : List TxRecord → TxOutcome → List TxRecord
  | [], _ => []
  | [r], o => [{ r with outcome := o }]
  | r :: r' :: rest, o => r :: setLastOutcome (r' :: rest) o

/-- The transfer completes (R150): the hold-off counts from now. -/
def completeTransfer (s : State) : State :=
  respond
    { s with
      inflight := none
      txlog := setLastOutcome s.txlog .done
      deadline := s.now + s.cfg.holdoff
      st := .cooldown } .ok s.xferLen

/-- The transfer fails (R151): no retry, no hold-off, the deadline unchanged. -/
def failTransfer (s : State) : State :=
  raiseError
    { s with
      inflight := none
      txlog := setLastOutcome s.txlog .failed
      st := .idle } .transfer

/-! ### Timer, clock and reset -/

/-- COOLDOWN ends (R149). -/
def leaveCooldown (s : State) : State := { s with st := .idle }

/-- The clock advances (R158). -/
def advanceClock (s : State) (ticks : Nat) : State := { s with now := s.now + ticks }

/-- The reset event (R240): every block register to its reset value and the held words discarded. The configuration and
the state outside the block (R33, R241) stay, and so do the model's own inputs (DESIGN CHOICE,
log entry 10). -/
def resetBlock (s : State) : State :=
  { State.resetWith s.cfg with
    now := s.now
    inflight := s.inflight
    stream := s.stream
    pos := s.pos
    txlog := s.txlog
    fault := s.fault
    schedule := s.schedule
    offer := s.offer
    readData := s.readData }

end Sys2Proof.Machine
end

