-- ==== Sys2Proof/Machine/FrameCommands.lean ====
section
/-! DEFINITION. The meanings of SHOW (R142) and CLEAR (R143): what happens when the block takes the command. The frame
itself is the ENCODING step and the transfer that follow (Machine/Sequencer.lean). -/

namespace Sys2Proof.Machine

/-- **SHOW** (R142): usability, overrun, then the request is latched. -/
def execShow (nLeds : BitVec 20) (scale : BitVec 8) (s : State) : Answer :=
  whenReady s (.ok (.showFrame nLeds scale)) fun s =>
    whenUsable s fun s =>
      whenFits s nLeds fun s => .next (latchShow s nLeds scale)

/-- **CLEAR** (R143): as SHOW, with no stream. -/
def execClear (nLeds : BitVec 20) (s : State) : Answer :=
  whenReady s (.ok (.clear nLeds)) fun s =>
    whenUsable s fun s =>
      whenFits s nLeds fun s => .next (latchClear s nLeds)

end Sys2Proof.Machine
end

