-- ==== Sys2Proof/Machine/Patterns.lean ====
section
/-! DEFINITION. The Pattern Table: high times, the derivation path `build` and the constant path (40_pattern_table.md). -/

namespace Sys2Proof.Machine

/-- `dist(a, b)` of R11, on naturals. -/
def natDist (a b : Nat) : Nat := if b ≤ a then a - b else b - a

/-- The 1 bits of a byte (R11). -/
def popcountByte (v : Byte) : Nat := (List.range 8).countP (fun b => v.getLsbD b)

/-- The 1 bits of a list of bytes (R11). -/
def popcount (bytes : List Byte) : Nat := (bytes.map popcountByte).sum

/-- `highTime(pat)` (R101). -/
def highTime (bitPeriod : Nat) (pat : List Byte) : Nat := popcount pat * bitPeriod

/-- A pattern meets the target `T` within `tol` (R102). -/
def meetsTarget (bitPeriod tol : Nat) (pat : List Byte) (target : Nat) : Bool :=
  decide (natDist (highTime bitPeriod pat) target ≤ tol)

/-- `M`, the bit positions of a pattern (R103). -/
def bitPositions (n : Nat) : Nat := 8 * n

/-- The nearest count before the clamp of R103: ties go to the smaller count. -/
def nearestCount (m bitPeriod target : Nat) : Nat :=
  let q := target / bitPeriod
  if m ≤ q then m
  else if target - q * bitPeriod ≤ (q + 1) * bitPeriod - target then q
  else q + 1

/-- `kOf(T)` (R103): the nearest count within `1 .. M-1`. -/
def kOf (n bitPeriod target : Nat) : Nat :=
  min (bitPositions n - 1) (max 1 (nearestCount (bitPositions n) bitPeriod target))

/-- `h` of R103: the high bits of `patOf k` that fall in byte j. -/
def highBitsInByte (k j : Nat) : Nat := min 8 (k - 8 * j)

/-- Byte j of `patOf(k)` (R103): `(0xFF << (8 - h)) & 0xFF`. -/
def patByte (k j : Nat) : Byte := (0xFF : Byte) <<< (8 - highBitsInByte k j)

/-- `patOf(k)` (R103): the first k bits in wire order are high. -/
def patOf (n k : Nat) : List Byte := (List.range n).map (patByte k)

/-- `build` (R103), for the configuration's period, targets, N and TOL; `none` is CONFIG_ERROR. -/
def build (c : Config) : Option PatternTable :=
  let k1 := kOf c.n c.bitPeriod c.tHighOne
  let k0 := kOf c.n c.bitPeriod c.tHighZero
  if natDist (k1 * c.bitPeriod) c.tHighOne ≤ c.tol ∧ natDist (k0 * c.bitPeriod) c.tHighZero ≤ c.tol ∧ k0 < k1 then
    some { one := patOf c.n k1, zero := patOf c.n k0 }
  else none

/-- The constant path (R105): only the number of high bits is checked. -/
def constPatterns (c : Config) : Option PatternTable :=
  if popcount c.zeroConst < popcount c.oneConst then some { one := c.oneConst, zero := c.zeroConst } else none

/-- The patterns INIT obtains (R107), `none` where the configuration fails R103 or R105. -/
def initPatterns (c : Config) : Option PatternTable :=
  match c.patMode with
  | .const => constPatterns c
  | .derive => build c

/-- The pattern of one protocol bit (R52 `PAT`, R123). -/
def PatternTable.pick (pt : PatternTable) (bit : Bool) : List Byte := if bit then pt.one else pt.zero

end Sys2Proof.Machine
end

