-- ==== Sys2Proof/Machine/InitCommand.lean ====
section
/-! DEFINITION. The meaning of INIT (R107). -/

namespace Sys2Proof.Machine

/-- INIT once the patterns are good: the capacity check, then the block is configured (R107). -/
def initWithPatterns (s : State) (pt : PatternTable) : State :=
  if s.cfg.bufBytes < required s.cfg then raiseError (enterCfgError s) .cfgCapacity
  else respond (configureBlock s pt) .ok 0

/-- **INIT** (R107): once since reset, patterns checked before capacity (R202). -/
def execInit (s : State) : Answer :=
  whenReady s (.ok .init) fun s =>
    if s.st ≠ .unconfigured then .next (raiseError s .state)
    else
      match initPatterns s.cfg with
      | none => .next (raiseError (enterCfgError s) .cfgPattern)
      | some pt => .next (initWithPatterns s pt)

end Sys2Proof.Machine
end

