-- ==== Sys2Proof/Machine/RateCommand.lean ====
section
/-! DEFINITION. The meaning of MAXRATE (R153). -/

namespace Sys2Proof.Machine

/-- **MAXRATE** (R153): report `maxRefreshRateFn(CFG)`; nothing else is read or changed. -/
def execMaxRate (s : State) : Answer :=
  whenReady s (.ok .maxRate) fun s =>
    whenUsable s fun s => .next (respond s .ok s.cfg.maxRefreshRate)

end Sys2Proof.Machine
end

