-- ==== Sys2Proof/Machine/Dispatch.lean ====
section
/-! DEFINITION. One arm per command: what the block does with a command presented to it (R140). -/

namespace Sys2Proof.Machine

/-- The meaning of a command. -/
def exec (i : Instr) (s : State) : Host.Outcome State Fault Refusal :=
  match i with
  | .init => Sys2Proof.Machine.execInit s
  | .showFrame nLeds scale => Sys2Proof.Machine.execShow nLeds scale s
  | .clear nLeds => Sys2Proof.Machine.execClear nLeds s
  | .maxRate => Sys2Proof.Machine.execMaxRate s

end Sys2Proof.Machine
end

