-- ==== Sys2Proof/Machine/Encoder.lean ====
section
/-! DEFINITION. The Frame Encoder (41_frame_encoder.md): the loops of R120 over its working registers. -/

namespace Sys2Proof.Machine

/-- The encoder's working values inside one ENCODING step (R26, R120): the buffer being written, the write cursor `cur`
and the stream position. The pixel index, the component and the bit index are the arguments of the loops below. They
persist across no other step, so State does not hold them. -/
structure Encoder where
  buf : Memory
  cur : Nat
  pos : Nat
  deriving DecidableEq, Repr

/-- `MemWrite(cur, 1, v); cur <- cur + 1` (R120). -/
def putByte (e : Encoder) (v : Byte) : Encoder :=
  { e with buf := Memory.write e.buf e.cur v, cur := e.cur + 1 }

/-- Write the bytes at the cursor, in order: a framing list (R121, R126) or one pattern (R123). -/
def putBytes (e : Encoder) (bytes : List Byte) : Encoder := bytes.foldl putByte e

/-- The bit loop of R120: `b` bits are left, taken from bit `b - 1` down to bit 0 (R122). -/
def encodeBits (pt : PatternTable) (comp : Byte) : Nat → Encoder → Encoder
  | 0, e => e
  | b + 1, e => encodeBits pt comp b (putBytes e (pt.pick (comp.getLsbD b)))

/-- One component: its 8 bits, most significant first (R122). -/
def encodeComponent (pt : PatternTable) (e : Encoder) (comp : Byte) : Encoder := encodeBits pt comp 8 e

/-- The three components of the next pixel and the stream position after them. SHOW loads them from the stream, if
`StreamHas(3)` (R53, R54, R124); CLEAR reads no stream and every component is `0x00` (R125). -/
def nextPixel (kind : ReqKind) (stream : List Byte) (pos : Nat) : Option (List Byte × Nat) :=
  match kind with
  | .clear => some ([0x00, 0x00, 0x00], pos)
  | .showFrame =>
    match stream.drop pos with
    | c0 :: c1 :: c2 :: _ => some ([c0, c1, c2], pos + 3)
    | _ => none

/-- The pixel loop of R120, `left` pixels left and `p` the next one. The second part is the pixel at which the stream was
short, if it was: the loop ends there (R124). -/
def encodePixels (pt : PatternTable) (kind : ReqKind) (stream : List Byte) :
    (left p : Nat) → Encoder → Encoder × Option Nat
  | 0, _, e => (e, none)
  | left + 1, p, e =>
    match nextPixel kind stream e.pos with
    | none => (e, some p)
    | some (comps, pos') =>
      encodePixels pt kind stream left (p + 1) (comps.foldl (encodeComponent pt) { e with pos := pos' })

/-- The writes of one ENCODING step (R120): leading framing, pixels, trailing framing. -/
def encodeFrame (c : Config) (pt : PatternTable) (r : Request) (stream : List Byte) (pos : Nat) (buf : Memory) :
    Encoder × Option Nat :=
  match encodePixels pt r.kind stream r.pixels 0 (putBytes { buf := buf, cur := 0, pos := pos } c.lead) with
  | (e, some p) => (e, some p)
  | (e, none) => (putBytes e c.trail, none)

end Sys2Proof.Machine
end

