-- ==== Sys2Proof/Machine/Sequencer.lean ====
section
/-! DEFINITION. The steps of the block, the peripheral, the clock and the host that no command causes directly
(42_transfer_sequencer.md, R78): the ENCODING step, the end of COOLDOWN, completion and failure, register accesses. -/

namespace Sys2Proof.Machine

/-- The end of the ENCODING step, the buffer written (R146): trigger the transfer, or finish an empty frame (R148). -/
def endEncoding (s : State) : Answer :=
  if s.xferLen = 0 then .next (finishEmptyFrame s) else send s s.xferLen.toNat

/-- What the ENCODING step leaves of its writes: the cells, the stream position, and at its end the lengths (R120, R127),
or the fault mark (R124; a next state, DESIGN CHOICE, log entry 9). -/
def writeFrame (s : State) (r : Request) : Encoder × Option Nat → Answer
  | (e, some p) => .next { s with buf := e.buf, pos := e.pos, fault := some (.streamUnderrun p) }
  | (e, none) =>
    endEncoding
      { s with
        buf := e.buf
        pos := e.pos
        contentLen := BitVec.ofNat 32 (content s.cfg r.pixels)
        xferLen := BitVec.ofNat 32 e.cur }

/-- **ENCODE** (R120, R146), one atomic step (D33). The frame must lie within the cells that exist (R51;
DESIGN CHOICE, safe, log entry 16). -/
def encodeStep (s : State) : Answer :=
  match s.pt, s.req with
  | none, _ => .fault .noPatternTable
  | some _, none => .fault .noRequest
  | some pt, some r =>
    if s.cfg.bufBytes < xlen s.cfg r.pixels then .fault (.outsideBuffer (xlen s.cfg r.pixels))
    else writeFrame s r (encodeFrame s.cfg pt r s.stream s.pos s.buf)

/-- A step of the block: none is taken once the fault mark is set (R154). -/
def blockStep (s : State) (rule : Answer) : Answer :=
  match s.fault with
  | some (.streamUnderrun p) => .fault (.streamUnderrun p)
  | none => rule

/-- The block's step in state ENCODING (R120); in any other state it is not enabled and nothing happens. -/
def encodeEvent (s : State) : Answer :=
  blockStep s (if s.st = .encoding then encodeStep s else .next s)

/-- The block ends COOLDOWN once `now >= deadline` (R149); otherwise it is not enabled and nothing happens. -/
def endCooldownEvent (s : State) : Answer :=
  blockStep s (if s.st = .cooldown ∧ s.deadline ≤ s.now then .next (leaveCooldown s) else .next s)

/-- The peripheral signals completion (R150). The signal of an earlier transfer, arriving in another state, is ignored
(R240, I15; DEDUCED, log entry 10). -/
def transferDoneEvent (s : State) : State := if s.st = .transmitting then completeTransfer s else s

/-- The peripheral reports a failure (R151); ignored outside TRANSMITTING as above. -/
def transferFailedEvent (s : State) : State := if s.st = .transmitting then failTransfer s else s

/-- The offset of a platform address in the register window (R50, R61); `none` below the window. -/
def windowOffset (c : Config) (addr : Nat) : Option Nat := if c.regBase ≤ addr then some (addr - c.regBase) else none

/-- A host access at a window offset (R35, R60): a 32-bit write of CMD presents a command (R140), a 32-bit read of a
readable register returns its value and changes nothing of the block (R59); anything else is refused. -/
def accessRegister (s : State) (a : Access) (offset : Nat) : Answer :=
  if a.bits ≠ 32 then .refused .undefinedAccess
  else
    match a.kind with
    | .write => if offset = 0x00 then .next { s with held := s.held ++ [a.data] } else .refused .undefinedAccess
    | .read =>
      match readableRegister s offset with
      | some v => .next { s with readData := some v }
      | none => .refused .undefinedAccess

/-- The host's access by platform address (R58 to R61). -/
def hostEvent (s : State) (a : Access) : Answer :=
  match windowOffset s.cfg a.addr with
  | some offset => accessRegister s a offset
  | none => .refused .undefinedAccess

end Sys2Proof.Machine
end

