-- ==== Sys2Proof/Machine/Events.lean ====
section
/-! DEFINITION. Taking a command from CMD (R140) and taking the next event of the schedule (R203). -/

namespace Sys2Proof.Machine

/-- An accepted ILLEGAL word "does nothing but `respond(ERR_ILLEGAL, 0)`" (R74). -/
def illegalCommand (r : Reject) (s : State) : Answer :=
  whenReady s (.error r) fun s => .next (raiseError s .illegal)

/-- The rule of a decoded word (R140). -/
def performCommand (d : Decoded) (s : State) : Answer :=
  match d with
  | .ok i => exec i s
  | .error r => illegalCommand r s

/-- The block's step that accepts the k-th word held at CMD (R140, R245): decode it, complete the host's write if the
block is ready for it, perform its rule. With no k-th word nothing happens. -/
def acceptCommand (s : State) (k : Nat) : Answer :=
  match s.held[k]? with
  | none => .next s
  | some w => performCommand (decode w) (releaseHeld s k (decode w))

/-- One event (R203). -/
def takeEvent (e : Event) (s : State) : Answer :=
  match e with
  | .host a => hostEvent s a
  | .accept k => blockStep s (acceptCommand s k)
  | .endCooldown => endCooldownEvent s
  | .encode => encodeEvent s
  | .colorLayer stream => .next { s with offer := stream }
  | .transferDone => .next (transferDoneEvent s)
  | .transferFailed => .next (transferFailedEvent s)
  | .clock ticks => .next (advanceClock s ticks)
  | .reset => .next (resetBlock s)

/-- The next event of the schedule is taken. With no event the machine waits: no agent moves and nothing changes
(DESIGN CHOICE, log entry 5). -/
def takeNextEvent (s : State) : Answer :=
  match s.schedule with
  | [] => .next s
  | e :: rest => takeEvent e { s with schedule := rest }

/-- One step: a model takes only well-formed configurations, "an ill-formed one is refused before any step" (R10). -/
def stepMachine (s : State) : Answer :=
  if s.cfg.wellFormed then takeNextEvent s else .refused .illFormedConfig

/-- The state with the word presented at CMD, first among the held ones, and its acceptance the next event. -/
def presentNext (s : State) (w : Word) : State :=
  { s with held := w :: s.held, schedule := .accept 0 :: s.schedule }

end Sys2Proof.Machine
end

