-- ==== Sys2Proof/Machine/Assembler.lean ====
section
/-! DEFINITION. The textual form of a command (R77), as a list of characters: the mnemonic, one space, the operands
separated by a comma and one space. Any other text spells no command. -/

namespace Sys2Proof.Machine

/-- The text after the given word, `none` where the text does not begin with it. -/
def dropWord : (word text : List Char) → Option (List Char)
  | [], text => some text
  | w :: ws, c :: cs => if w = c then dropWord ws cs else none
  | _ :: _, [] => none

/-- A decimal digit's value. -/
def decDigit (c : Char) : Option Nat := if '0' ≤ c ∧ c ≤ '9' then some (c.toNat - '0'.toNat) else none

/-- A hexadecimal digit's value, in either case (DESIGN CHOICE, safe, log entry 11). -/
def hexDigit (c : Char) : Option Nat :=
  if '0' ≤ c ∧ c ≤ '9' then some (c.toNat - '0'.toNat)
  else if 'a' ≤ c ∧ c ≤ 'f' then some (c.toNat - 'a'.toNat + 10)
  else if 'A' ≤ c ∧ c ≤ 'F' then some (c.toNat - 'A'.toNat + 10)
  else none

/-- The value of a digit string read after the value `acc`. -/
def digitsValue (base : Nat) (digit : Char → Option Nat) : (acc : Nat) → List Char → Option Nat
  | acc, [] => some acc
  | acc, c :: cs =>
    match digit c with
    | some d => digitsValue base digit (acc * base + d) cs
    | none => none

/-- A number: decimal, or `0x` and hexadecimal (R77); at least one digit. -/
def numberValue (text : List Char) : Option Nat :=
  match dropWord ['0', 'x'] text with
  | some [] => none
  | some digits => digitsValue 16 hexDigit 0 digits
  | none => if text = [] then none else digitsValue 10 decDigit 0 text

/-- An operand of `w` bits; "a number out of range spells no command" (R77). -/
def operandValue (w : Nat) (text : List Char) : Option (BitVec w) :=
  match numberValue text with
  | some v => if v < 2 ^ w then some (BitVec.ofNat w v) else none
  | none => none

/-- The text before and after the first comma. -/
def splitAtComma : List Char → Option (List Char × List Char)
  | [] => none
  | c :: cs =>
    if c = ',' then some ([], cs)
    else
      match splitAtComma cs with
      | some (before, after) => some (c :: before, after)
      | none => none

/-- The operands `<nLeds>, <scale>` of SHOW. -/
def showOperands (text : List Char) : Option Instr :=
  match splitAtComma text with
  | none => none
  | some (before, after) =>
    match operandValue 20 before, dropWord [' '] after with
    | some nLeds, some scaleText => (operandValue 8 scaleText).map (Instr.showFrame nLeds)
    | _, _ => none

/-- The command a line of text spells (R77). -/
def parseCommand (text : List Char) : Option Instr :=
  if text = ['I', 'N', 'I', 'T'] then some .init
  else if text = ['M', 'A', 'X', 'R', 'A', 'T', 'E'] then some .maxRate
  else
    match dropWord ['S', 'H', 'O', 'W', ' '] text with
    | some rest => showOperands rest
    | none =>
      match dropWord ['C', 'L', 'E', 'A', 'R', ' '] text with
      | some rest => (operandValue 20 rest).map Instr.clear
      | none => none

/-- The word a line of text assembles to (R77). -/
def assemble (text : List Char) : Option Word := (parseCommand text).map encode

end Sys2Proof.Machine
end

