-- ==== Sys2Proof/Machine/Wire.lean ====
section
/-! DEFINITION. What a transfer puts on the data line (R56, R101), what may have reached it (R34, I14, I15), and the
reading back of a frame's content by matching patterns (R129). -/

namespace Sys2Proof.Machine

/-- The bits of one byte in wire order: bit 7 first (R56). -/
def wireBitsOfByte (v : Byte) : List Bool := (List.range 8).map (fun i => v.getLsbD (7 - i))

/-- The bit sequence of a transfer (R56): bytes in ascending order, each most significant bit first. -/
def wireBits (bytes : List Byte) : List Bool := bytes.flatMap wireBitsOfByte

/-- How long a transfer of these bytes is on the line: every bit is held for one bit period (R56, R247). -/
def wireTime (bitPeriod : Nat) (bytes : List Byte) : Nat := (wireBits bytes).length * bitPeriod

/-- The line's level at a time after the start of the transfer, `true` for high (R56); `none` once it is over. -/
def lineLevel (bitPeriod : Nat) (bytes : List Byte) (time : Nat) : Option Bool := (wireBits bytes)[time / bitPeriod]?

/-- The bytes that may have reached the line for a record: all of a completed transfer; any prefix of one that failed or
has not ended, "including none or all" (I14, I15, R240; log entry 15). -/
def mayHaveReachedLine (r : TxRecord) (bytes : List Byte) : Bool :=
  match r.outcome with
  | .done => bytes == r.bytes
  | .pending | .failed => bytes.isPrefixOf r.bytes

/-- The first `count` groups of `size` entries each. -/
def groupsOf {α : Type} (size : Nat) : (count : Nat) → List α → List (List α)
  | 0, _ => []
  | count + 1, xs => xs.take size :: groupsOf size count (xs.drop size)

/-- The protocol bit of one group: 1 for the ONE-pattern, 0 for the ZERO-pattern (R129). -/
def bitOfGroup (pt : PatternTable) (group : List Byte) : Option Bool :=
  if group = pt.one then some true else if group = pt.zero then some false else none

/-- Pack bits into a byte, most significant first (R129). -/
def packByte (bits : List Bool) : Byte :=
  bits.foldl (fun acc bit => acc <<< 1 ||| (BitVec.ofBool bit).zeroExtend 8) 0

/-- Read `count` components back from content bytes whose groups have `n` bytes (R129); `none` where a group is neither
pattern. -/
def decodeContent (pt : PatternTable) (n count : Nat) (bytes : List Byte) : Option (List Byte) :=
  ((groupsOf n (8 * count) bytes).mapM (bitOfGroup pt)).map fun bits => (groupsOf 8 count bits).map packByte

end Sys2Proof.Machine
end

