-- ==== Sys2Proof/Safety.lean ====
section
/-! DEFINITION. The terms the claims use: the invariant of the machine, the duty of the color layer, the content a frame
must have, and the events of the block. -/

namespace Sys2Proof.Machine

/-- The components of the frame of request `r` (R52 `comp(p,c)`, R125): SHOW's come from the stream at its read position,
CLEAR's are all `0x00`. -/
def componentsOf (s : State) (r : Request) : List Byte :=
  match r.kind with
  | .showFrame => (s.stream.drop s.pos).take (3 * r.pixels)
  | .clear => List.replicate (3 * r.pixels) 0x00

/-- The stream position a frame of request `r` ends with (R125). -/
def posAfterFrame (s : State) (r : Request) : Nat :=
  match r.kind with
  | .showFrame => s.pos + 3 * r.pixels
  | .clear => s.pos

/-- The color layer's duty (R124, R244): a SHOW frame has at least three components a pixel left in its stream. -/
def streamSuffices (s : State) (r : Request) : Prop :=
  r.kind = .showFrame → 3 * r.pixels ≤ s.stream.length - s.pos

/-- The bytes of a whole frame (R52): framing, one pattern for each bit of each component, framing. -/
def frameBytes (c : Config) (pt : PatternTable) (comps : List Byte) : List Byte :=
  c.lead ++ comps.flatMap (fun v => (wireBitsOfByte v).flatMap pt.pick) ++ c.trail

/-- The pattern table is one INIT could have written (R24): both patterns have N bytes and ONE has more high bits. -/
def patternsSound (c : Config) (pt : PatternTable) : Prop :=
  pt.one.length = c.n ∧ pt.zero.length = c.n ∧ popcount pt.zero < popcount pt.one

/-- The transfer under way is the one the log's last record says is pending (R147). -/
def transferUnderWay (s : State) : Prop :=
  match s.inflight with
  | none => False
  | some bytes =>
    bytes.length = s.xferLen.toNat ∧ s.txlog.getLast? = some { bytes := bytes, outcome := .pending }

/-- The invariant of the machine: it holds at reset and every step keeps it. -/
structure Inv (s : State) : Prop where
  /-- a model takes only well-formed configurations (R10) -/
  config : s.cfg.wellFormed = true
  /-- the buffer's cells are in canonical form -/
  canonical : Memory.wf s.buf = true
  /-- no cell outside `BUF_BYTES` is ever written (R51) -/
  inside : ∀ cell ∈ s.buf, cell.1 < s.cfg.bufBytes
  /-- the block is usable exactly when the pattern table has a value (R23, R141) -/
  table : s.pt.isSome = s.st.usable
  /-- the pattern table satisfies R24 -/
  sound : ∀ pt ∈ s.pt, patternsSound s.cfg pt
  /-- a usable block has the capacity its configuration needs (R107) -/
  capacity : s.st.usable = true → required s.cfg ≤ s.cfg.bufBytes
  /-- the peripheral has been started exactly when the block is usable (R32, R108) -/
  started : s.periphStarted = s.st.usable
  /-- no request asks for more than `MAX_LEDS` (R144) -/
  fits : ∀ r ∈ s.req, r.pixels ≤ s.cfg.maxLeds
  /-- ENCODING has a request (R27) -/
  requested : s.st = .encoding → s.req.isSome = true
  /-- the stream of a SHOW frame about to be encoded is read from its start (R53, R142) -/
  fresh : s.st = .encoding → s.fault = none → ∀ r ∈ s.req, r.kind = .showFrame → s.pos = 0
  /-- in TRANSMITTING the transfer is under way and has bytes (R146, R147) -/
  transfer : s.st = .transmitting → transferUnderWay s ∧ 0 < s.xferLen.toNat
  /-- outside COOLDOWN a usable block has waited for its deadline (R149, R155) -/
  waited : s.st = .idle ∨ s.st = .encoding ∨ s.st = .transmitting → s.deadline ≤ s.now

/-- The state is about to take the ENCODING step of the request `r` with the patterns `pt`, and the color layer has done
its duty: the premises under which R120 runs to its end. -/
structure AboutToEncode (s : State) (pt : PatternTable) (r : Request) (rest : List Event) : Prop where
  inv : Inv s
  noFault : s.fault = none
  encoding : s.st = .encoding
  table : s.pt = some pt
  request : s.req = some r
  stream : streamSuffices s r
  next : s.schedule = .encode :: rest

/-- The state is about to accept the word `w`, the k-th held at CMD. -/
structure AboutToAccept (s : State) (k : Nat) (w : Word) (rest : List Event) : Prop where
  config : s.cfg.wellFormed = true
  noFault : s.fault = none
  held : s.held[k]? = some w
  next : s.schedule = .accept k :: rest

/-- `k` steps of the machine, stopping at the first fault or refusal. -/
def runSteps : Nat → State → Answer
  | 0, s => .next s
  | k + 1, s =>
    match step s with
    | .next t => runSteps k t
    | .fault f => .fault f
    | .refused q => .refused q

/-- The shortest texts of a number in a command's text (R77): decimal, and `0x` hexadecimal. -/
def numerals (n : Nat) : List (List Char) := [Nat.toDigits 10 n, '0' :: 'x' :: Nat.toDigits 16 n]

/-- The character is a digit of the base with this value; the digits above nine are letters of either case (R77; either
case: log entry 11). -/
abbrev IsDigit (base : Nat) (c : Char) (d : Nat) : Prop :=
  d < base ∧ (c = Nat.digitChar d ∨ c = (Nat.digitChar d).toUpper)

/-- The text is one or more digits of the base and has this value, the first digit the most significant. -/
inductive DigitsSpell (base : Nat) : List Char → Nat → Prop where
  | one {c : Char} {d : Nat} : IsDigit base c d → DigitsSpell base [c] d
  | more {cs : List Char} {v : Nat} {c : Char} {d : Nat} :
    DigitsSpell base cs v → IsDigit base c d → DigitsSpell base (cs ++ [c]) (v * base + d)

/-- The text is a number of R77, "decimal or `0x` hexadecimal", of this value (leading zeros: log entry 11). -/
def NumberSpells (text : List Char) (n : Nat) : Prop :=
  DigitsSpell 10 text n ∨ ∃ digits, text = '0' :: 'x' :: digits ∧ DigitsSpell 16 digits n

/-- The text of SHOW with the two operands' texts (R77). -/
def showText (nLeds scale : List Char) : List Char := ['S', 'H', 'O', 'W', ' '] ++ nLeds ++ [',', ' '] ++ scale

/-- The text of CLEAR with the operand's text (R77). -/
def clearText (nLeds : List Char) : List Char := ['C', 'L', 'E', 'A', 'R', ' '] ++ nLeds

/-- An event of the block itself (R7 b): the others are the host's, the color layer's, the peripheral's, the clock's, and
reset. -/
def Event.ofBlock : Event → Bool
  | .accept _ | .endCooldown | .encode => true
  | .host _ | .colorLayer _ | .transferDone | .transferFailed | .clock _ | .reset => false

/-- The event is the peripheral's signal. -/
def Event.ofPeripheral : Event → Bool
  | .transferDone | .transferFailed => true
  | .host _ | .accept _ | .endCooldown | .encode | .colorLayer _ | .clock _ | .reset => false

end Sys2Proof.Machine
end

