-- ==== Sys2Proof/Certificates/Slice0/Obligations.lean ====
section
/-! DEFINITION. The statements for the provers. Each docstring names the rule of spec/ it formalises. -/

open Sys2Proof Sys2Proof.Machine

/-! ### Encoding (30_encoding.md) -/

/-- R76, R77: decoding the word of any command gives the command back, every operand at every value. -/
def Obligations.DecodeOfEncode : Prop :=
  ∀ i : Instr, decode (encode i) = .ok i

/-- R76, R77: a word that decodes to a command is the word of that command, so no bit of a legal word is dropped. -/
def Obligations.EncodeOfDecode : Prop :=
  ∀ (w : Word) (i : Instr), decode w = .ok i → encode i = w

/-- R73: a word decodes to a command exactly when it matches the command's row, with the operand fields of R70; no word
matches two rows; and the decoder rejects exactly the words that match none. -/
def Obligations.WordMatchesItsRow : Prop :=
  (∀ w : Word, decode w = .ok .init ↔ w &&& 0xFFFFFFFF = 0x00000001) ∧
  (∀ (w : Word) (n : BitVec 20) (sc : BitVec 8),
    decode w = .ok (.showFrame n sc) ↔
      w &&& 0x0000000F = 0x00000002 ∧ n = w.extractLsb' 12 20 ∧ sc = w.extractLsb' 4 8) ∧
  (∀ (w : Word) (n : BitVec 20),
    decode w = .ok (.clear n) ↔ w &&& 0x00000FFF = 0x00000003 ∧ n = w.extractLsb' 12 20) ∧
  (∀ w : Word, decode w = .ok .maxRate ↔ w &&& 0xFFFFFFFF = 0x00000004) ∧
  opcodeRows.Pairwise (fun a b => ∀ w : Word, ¬(a.matches w = true ∧ b.matches w = true)) ∧
  (∀ w : Word, (∃ r, decode w = .error r) ↔ ∀ row ∈ opcodeRows, row.matches w = false)

/-- 95_test_vectors.md section 5 (decoder vectors): what every word of its table decodes to. -/
def Obligations.SpecWordsDecode : Prop :=
  decode 0x00000001 = .ok .init ∧
  decode 0x00001FF2 = .ok (.showFrame 1 255) ∧
  decode 0x00002FF2 = .ok (.showFrame 2 255) ∧
  decode 0x00003FF2 = .ok (.showFrame 3 255) ∧
  decode 0x00000002 = .ok (.showFrame 0 0) ∧
  decode 0x00002002 = .ok (.showFrame 2 0) ∧
  decode 0xFFFFF002 = .ok (.showFrame 1048575 0) ∧
  decode 0x00002003 = .ok (.clear 2) ∧
  decode 0x00001003 = .ok (.clear 1) ∧
  decode 0x00000003 = .ok (.clear 0) ∧
  decode 0x00000004 = .ok .maxRate ∧
  (∀ w ∈ [0x00000000, 0x00000005, 0x0000000F, 0x00000011, 0x00000010, 0x00000013, 0x00002013, 0xFFFFFFF3, 0x00001004],
    ∃ r, decode w = .error r)

/-- R77: the words of SHOW and of CLEAR by the formula of the rule; every form of the rule assembles to its word, whatever
text its numbers have, and one with a number out of range to none; every number has a decimal and a hexadecimal text; the
rule's examples; and a text that assembles is one of the forms, its operands numbers in range, and gives the word of the
command it spells. The single spaces, the letters of either case and the leading zeros are the model's choice (log entry
11). -/
def Obligations.AssemblerEncodesCommands : Prop :=
  (∀ (n : BitVec 20) (sc : BitVec 8),
    encode (.showFrame n sc) = (n.zeroExtend 32 <<< 12) ||| (sc.zeroExtend 32 <<< 4) ||| 0x2) ∧
  (∀ n : BitVec 20, encode (.clear n) = (n.zeroExtend 32 <<< 12) ||| 0x3) ∧
  assemble ['I', 'N', 'I', 'T'] = some 0x00000001 ∧
  assemble ['M', 'A', 'X', 'R', 'A', 'T', 'E'] = some 0x00000004 ∧
  (∀ (n sc : Nat) (nText scText : List Char), NumberSpells nText n → NumberSpells scText sc →
    assemble (showText nText scText) =
      if n ≤ 1048575 ∧ sc ≤ 255 then
        some ((BitVec.ofNat 32 n <<< 12) ||| (BitVec.ofNat 32 sc <<< 4) ||| 0x2)
      else none) ∧
  (∀ (n : Nat) (nText : List Char), NumberSpells nText n →
    assemble (clearText nText) = if n ≤ 1048575 then some ((BitVec.ofNat 32 n <<< 12) ||| 0x3) else none) ∧
  (∀ n : Nat, ∀ text ∈ numerals n, NumberSpells text n) ∧
  assemble ['S', 'H', 'O', 'W', ' ', '1', ',', ' ', '2', '5', '5'] = some 0x00001FF2 ∧
  assemble ['C', 'L', 'E', 'A', 'R', ' ', '2'] = some 0x00002003 ∧
  (∀ (text : List Char) (w : Word), assemble text = some w →
    (∃ i, decode w = .ok i ∧ parseCommand text = some i) ∧
    (text = ['I', 'N', 'I', 'T'] ∨ text = ['M', 'A', 'X', 'R', 'A', 'T', 'E'] ∨
      (∃ n sc nText scText, NumberSpells nText n ∧ NumberSpells scText sc ∧ n ≤ 1048575 ∧ sc ≤ 255 ∧
        text = showText nText scText) ∨
      ∃ n nText, NumberSpells nText n ∧ n ≤ 1048575 ∧ text = clearText nText))

/-! ### Taking a command (R140, R74, R141) -/

/-- R140: accepting a held word that decodes to a command runs that command. Around `exec` the step takes the event
off the schedule, and the word leaves CMD exactly when the block is ready for it. The schedule and the list of held
words are the model's form (log entries 5 and 7). -/
def Obligations.StepRunsTheAcceptedCommand : Prop :=
  ∀ (s : State) (k : Nat) (w : Word) (rest : List Event) (i : Instr),
    AboutToAccept s k w rest → decode w = .ok i →
    step s =
      if ready s.st (.ok i) = true then exec i { s with schedule := rest, held := s.held.eraseIdx k }
      else exec i { s with schedule := rest }

/-- R74: a word that matches no row, when accepted, does nothing but `respond(ERR_ILLEGAL, 0)`. The schedule and the
list of held words are the model's form (log entries 5 and 7). -/
def Obligations.IllegalWordOnlyResponds : Prop :=
  ∀ (s : State) (k : Nat) (w : Word) (rest : List Event),
    AboutToAccept s k w rest → (∀ row ∈ opcodeRows, row.matches w = false) →
    s.st ≠ .encoding → s.st ≠ .transmitting →
    step s =
      .next { s with
        schedule := rest
        held := s.held.eraseIdx k
        err := .illegal
        result := 0
        respSeq := s.respSeq + 1 }

/-- R140: while the block is busy no word is accepted, legal or not, and in COOLDOWN no SHOW and no CLEAR: the word
stays at CMD and nothing changes but the schedule. That the event leaves the schedule is the model's choice (log
entry 5), and so is exec's answer (log entry 14). -/
def Obligations.UnreadyCommandIsHeld : Prop :=
  ∀ (s : State) (k : Nat) (w : Word) (rest : List Event),
    AboutToAccept s k w rest →
    ((s.st = .encoding ∨ s.st = .transmitting) ∨
      (s.st = .cooldown ∧ ∃ n sc, decode w = .ok (.showFrame n sc) ∨ decode w = .ok (.clear n))) →
    step s = .next { s with schedule := rest } ∧
      (∀ i, decode w = .ok i → exec i s = .next s)

/-- R141: SHOW, CLEAR and MAXRATE in an unusable block only respond ERR_UNUSABLE; INIT is the only command with another
effect in UNCONFIGURED. -/
def Obligations.UnusableBlockOnlyResponds : Prop :=
  ∀ (s : State) (i : Instr),
    s.st = .unconfigured ∨ s.st = .cfgError → i ≠ .init →
    exec i s = .next { s with err := .unusable, result := 0, respSeq := s.respSeq + 1 }

/-- No command faults and none is refused: in every state `exec` answers a next state. In a state that is not ready for
the command that answer is the unchanged state, and in one that is ill-formed or marked `exec` does not ask, the step
does: both are the model's choice (log entries 14, 13 and 9). -/
def Obligations.EveryCommandAnswersNext : Prop :=
  ∀ (i : Instr) (s : State), ∃ t, exec i s = .next t

/-! ### INIT (40_pattern_table.md) -/

/-- R107, R105: INIT in CONST mode completes when ONE has more high bits than ZERO and the buffer is large enough. -/
def Obligations.InitFromConstants : Prop :=
  ∀ s : State,
    s.st = .unconfigured → s.cfg.patMode = .const →
    popcount s.cfg.zeroConst < popcount s.cfg.oneConst → required s.cfg ≤ s.cfg.bufBytes →
    exec .init s =
      .next { s with
        pt := some { one := s.cfg.oneConst, zero := s.cfg.zeroConst }
        periphStarted := true
        deadline := s.now + s.cfg.startupDelay
        st := .cooldown
        err := .ok
        result := 0
        respSeq := s.respSeq + 1 }

/-- R107, R103: INIT in DERIVE mode completes when both nearest counts meet their targets, ONE's is the larger, and the
buffer is large enough. -/
def Obligations.InitFromDerivation : Prop :=
  ∀ s : State,
    s.st = .unconfigured → s.cfg.patMode = .derive →
    natDist (kOf s.cfg.n s.cfg.bitPeriod s.cfg.tHighOne * s.cfg.bitPeriod) s.cfg.tHighOne ≤ s.cfg.tol →
    natDist (kOf s.cfg.n s.cfg.bitPeriod s.cfg.tHighZero * s.cfg.bitPeriod) s.cfg.tHighZero ≤ s.cfg.tol →
    kOf s.cfg.n s.cfg.bitPeriod s.cfg.tHighZero < kOf s.cfg.n s.cfg.bitPeriod s.cfg.tHighOne →
    required s.cfg ≤ s.cfg.bufBytes →
    exec .init s =
      .next { s with
        pt := some
          { one := patOf s.cfg.n (kOf s.cfg.n s.cfg.bitPeriod s.cfg.tHighOne)
            zero := patOf s.cfg.n (kOf s.cfg.n s.cfg.bitPeriod s.cfg.tHighZero) }
        periphStarted := true
        deadline := s.now + s.cfg.startupDelay
        st := .cooldown
        err := .ok
        result := 0
        respSeq := s.respSeq + 1 }

/-- R107, R103, R105, R202: INIT's three errors and their order: ERR_STATE once INIT has run; then ERR_CFG_PATTERN, where
in CONST mode ONE has no more high bits than ZERO, or in DERIVE mode a nearest count misses its target or ONE's is not
the larger; then ERR_CFG_CAPACITY, where the patterns are good and the buffer is too small. The pattern table, the
deadline and the peripheral stay as they were. -/
def Obligations.InitErrorsInOrder : Prop :=
  ∀ s : State,
    (s.st = .idle ∨ s.st = .cooldown ∨ s.st = .cfgError →
      exec .init s = .next { s with err := .state, result := 0, respSeq := s.respSeq + 1 }) ∧
    (s.st = .unconfigured →
      (s.cfg.patMode = .const ∧ popcount s.cfg.oneConst ≤ popcount s.cfg.zeroConst) ∨
        (s.cfg.patMode = .derive ∧
          (s.cfg.tol < natDist (kOf s.cfg.n s.cfg.bitPeriod s.cfg.tHighOne * s.cfg.bitPeriod) s.cfg.tHighOne ∨
            s.cfg.tol < natDist (kOf s.cfg.n s.cfg.bitPeriod s.cfg.tHighZero * s.cfg.bitPeriod) s.cfg.tHighZero ∨
            kOf s.cfg.n s.cfg.bitPeriod s.cfg.tHighOne ≤ kOf s.cfg.n s.cfg.bitPeriod s.cfg.tHighZero)) →
      exec .init s =
        .next { s with st := .cfgError, err := .cfgPattern, result := 0, respSeq := s.respSeq + 1 }) ∧
    (s.st = .unconfigured →
      (s.cfg.patMode = .const ∧ popcount s.cfg.zeroConst < popcount s.cfg.oneConst) ∨
        (s.cfg.patMode = .derive ∧
          natDist (kOf s.cfg.n s.cfg.bitPeriod s.cfg.tHighOne * s.cfg.bitPeriod) s.cfg.tHighOne ≤ s.cfg.tol ∧
          natDist (kOf s.cfg.n s.cfg.bitPeriod s.cfg.tHighZero * s.cfg.bitPeriod) s.cfg.tHighZero ≤ s.cfg.tol ∧
          kOf s.cfg.n s.cfg.bitPeriod s.cfg.tHighZero < kOf s.cfg.n s.cfg.bitPeriod s.cfg.tHighOne) →
      s.cfg.bufBytes < required s.cfg →
      exec .init s =
        .next { s with st := .cfgError, err := .cfgCapacity, result := 0, respSeq := s.respSeq + 1 })

/-- R104, which the spec marks as derived from its rules R101 and R103: a derived pattern has exactly k high bits, they are
the first k in wire order, and a successful build meets both targets with ONE's count the larger. -/
def Obligations.DerivedPatternShape : Prop :=
  (∀ n k : Nat, k ≤ 8 * n →
    popcount (patOf n k) = k ∧
    wireBits (patOf n k) = List.replicate k true ++ List.replicate (8 * n - k) false) ∧
  (∀ (c : Config) (pt : PatternTable), 1 ≤ c.n → build c = some pt →
    popcount pt.one = kOf c.n c.bitPeriod c.tHighOne ∧
    popcount pt.zero = kOf c.n c.bitPeriod c.tHighZero ∧
    popcount pt.zero < popcount pt.one ∧
    natDist (highTime c.bitPeriod pt.one) c.tHighOne ≤ c.tol ∧
    natDist (highTime c.bitPeriod pt.zero) c.tHighZero ≤ c.tol)

/-- R103, C10: the count the build takes lies in `1 .. M-1`, no other count there has a smaller error, and among
equal errors it is the smallest. The spec marks the least error an inference from its definition of the count. -/
def Obligations.NearestCountHasLeastError : Prop :=
  ∀ n period target k : Nat,
    1 ≤ n → 0 < period → 1 ≤ k → k ≤ 8 * n - 1 →
    1 ≤ kOf n period target ∧ kOf n period target ≤ 8 * n - 1 ∧
    natDist (kOf n period target * period) target ≤ natDist (k * period) target ∧
    (natDist (kOf n period target * period) target = natDist (k * period) target → kOf n period target ≤ k)

/-! ### SHOW, CLEAR and MAXRATE (42_transfer_sequencer.md) -/

/-- R142, R145: SHOW in IDLE with a count that fits latches its request and the color layer's stream, and enters
ENCODING. The field the stream waits in is the model's (log entry 8). -/
def Obligations.ShowLatchesItsRequest : Prop :=
  ∀ (s : State) (nLeds : BitVec 20) (scale : BitVec 8),
    s.st = .idle → nLeds.toNat ≤ s.cfg.maxLeds →
    exec (.showFrame nLeds scale) s =
      .next { s with
        req := some { kind := .showFrame, n := nLeds, scale := scale }
        stream := s.offer
        pos := 0
        st := .encoding }

/-- R143: CLEAR in IDLE with a count that fits latches its request, asks for no stream, and enters ENCODING. -/
def Obligations.ClearLatchesItsRequest : Prop :=
  ∀ (s : State) (nLeds : BitVec 20),
    s.st = .idle → nLeds.toNat ≤ s.cfg.maxLeds →
    exec (.clear nLeds) s =
      .next { s with req := some { kind := .clear, n := nLeds, scale := 0 }, st := .encoding }

/-- R144: a SHOW or CLEAR with a count over `MAX_LEDS` is rejected before anything is written: the response is the only
change, so `st`, `Buf`, `REQ_*`, `CONTENT_LEN`, `XFER_LEN`, `deadline` and `TXLOG` stay. -/
def Obligations.OverrunIsRejected : Prop :=
  ∀ (s : State) (nLeds : BitVec 20) (scale : BitVec 8),
    s.st = .idle → s.cfg.maxLeds < nLeds.toNat →
    exec (.showFrame nLeds scale) s = .next { s with err := .overrun, result := 0, respSeq := s.respSeq + 1 } ∧
    exec (.clear nLeds) s = .next { s with err := .overrun, result := 0, respSeq := s.respSeq + 1 }

/-- The inference 42_transfer_sequencer.md draws after R144 ("With `nLeds <= MAX_LEDS` the frame fits", marked derived
there), and R51's bound: in a usable block every count that is accepted fits the buffer. -/
def Obligations.AcceptedFrameFitsTheBuffer : Prop :=
  ∀ (s : State) (n : Nat), Inv s → s.st.usable = true → n ≤ s.cfg.maxLeds →
    xlen s.cfg n ≤ required s.cfg ∧ required s.cfg ≤ s.cfg.bufBytes ∧ s.cfg.bufBytes < 2 ^ 32

/-- R153: MAXRATE in IDLE or COOLDOWN reports `maxRefreshRateFn(CFG)` and changes nothing else. -/
def Obligations.MaxRateReportsTheParameter : Prop :=
  ∀ s : State,
    s.st = .idle ∨ s.st = .cooldown →
    exec .maxRate s = .next { s with err := .ok, result := s.cfg.maxRefreshRate, respSeq := s.respSeq + 1 }

/-- R145: the scale has no effect inside the block, the stream the color layer offers held fixed: that the offer
does not change with the scale is the model's choice (log entry 8). SHOWs that differ in it leave states that differ
in `REQ_SCALE` alone, and a step of two states that differ in `REQ_SCALE` alone leaves two such states. -/
def Obligations.ScaleHasNoEffect : Prop :=
  (∀ (s t : State) (nLeds : BitVec 20) (x y : BitVec 8),
    exec (.showFrame nLeds x) s = .next t →
    ∃ u, exec (.showFrame nLeds y) s = .next u ∧ { u with req := t.req } = t ∧
      (u.req = t.req ∨ u.req = t.req.map (fun r => { r with scale := y }))) ∧
  (∀ (s t : State) (r : Request) (y : BitVec 8),
    s.req = some r → step s = .next t →
    ∃ u, step { s with req := some { r with scale := y } } = .next u ∧ { u with req := t.req } = t ∧
      (u.req = t.req ∨ u.req = t.req.map (fun r => { r with scale := y })))

/-! ### Frames: what a command leaves unchanged -/

/-- INIT changes no byte of the buffer and no register but those R107 names. -/
def Obligations.InitFrame : Prop :=
  ∀ s t : State, exec .init s = .next t →
    (∀ a, Memory.read t.buf a = Memory.read s.buf a) ∧
    { t with
      buf := s.buf, pt := s.pt, periphStarted := s.periphStarted, deadline := s.deadline, st := s.st, err := s.err,
      result := s.result, respSeq := s.respSeq } = s

/-- SHOW's acceptance changes no byte of the buffer and no register but the request, the stream, the state and the
response. -/
def Obligations.ShowFrame : Prop :=
  ∀ (s t : State) (nLeds : BitVec 20) (scale : BitVec 8), exec (.showFrame nLeds scale) s = .next t →
    (∀ a, Memory.read t.buf a = Memory.read s.buf a) ∧
    { t with
      buf := s.buf, req := s.req, stream := s.stream, pos := s.pos, st := s.st, err := s.err, result := s.result,
      respSeq := s.respSeq } = s

/-- CLEAR's acceptance changes no byte of the buffer, not the stream, and no register but the request, the state and the
response. -/
def Obligations.ClearFrame : Prop :=
  ∀ (s t : State) (nLeds : BitVec 20), exec (.clear nLeds) s = .next t →
    (∀ a, Memory.read t.buf a = Memory.read s.buf a) ∧
    { t with buf := s.buf, req := s.req, st := s.st, err := s.err, result := s.result, respSeq := s.respSeq } = s

/-- MAXRATE changes no byte of the buffer and no register but the response (R153). -/
def Obligations.MaxRateFrame : Prop :=
  ∀ s t : State, exec .maxRate s = .next t →
    (∀ a, Memory.read t.buf a = Memory.read s.buf a) ∧
    { t with buf := s.buf, err := s.err, result := s.result, respSeq := s.respSeq } = s

/-! ### The Frame Encoder (41_frame_encoder.md, R52) -/

/-- R52: what the buffer holds after the ENCODING step, cell by cell, and that no cell from `XLEN(n)` on is written. -/
def Obligations.EncodedFrameLayout : Prop :=
  ∀ (s : State) (pt : PatternTable) (r : Request) (rest : List Event), AboutToEncode s pt r rest →
    ∃ t, step s = .next t ∧
      (∀ i v, s.cfg.lead[i]? = some v → Memory.read t.buf i = some v) ∧
      (∀ p c b j comp, p < r.pixels → c < 3 → b < 8 → j < s.cfg.n → (componentsOf s r)[3 * p + c]? = some comp →
        Memory.read t.buf (s.cfg.lead.length + ((3 * p + c) * 8 + (7 - b)) * s.cfg.n + j) =
          (if comp.getLsbD b then pt.one else pt.zero)[j]?) ∧
      (∀ i v, s.cfg.trail[i]? = some v →
        Memory.read t.buf (s.cfg.lead.length + content s.cfg r.pixels + i) = some v) ∧
      (∀ i, xlen s.cfg r.pixels ≤ i → Memory.read t.buf i = Memory.read s.buf i) ∧
      (componentsOf s r).length = 3 * r.pixels

/-- R127, whose second sentence the spec marks as derived: the return value is `n * 3 * 8 * N`, and the transfer length is that plus the framing count. -/
def Obligations.EncoderReturnsLengths : Prop :=
  ∀ (s : State) (pt : PatternTable) (r : Request) (rest : List Event), AboutToEncode s pt r rest →
    ∃ t, step s = .next t ∧
      t.contentLen.toNat = r.pixels * 3 * 8 * s.cfg.n ∧
      t.xferLen.toNat = t.contentLen.toNat + framing s.cfg

/-- R128: an empty frame writes only the framing bytes and reads no stream. -/
def Obligations.EmptyFrameIsOnlyFraming : Prop :=
  ∀ (s : State) (pt : PatternTable) (r : Request) (rest : List Event), AboutToEncode s pt r rest → r.pixels = 0 →
    ∃ t, step s = .next t ∧
      (∀ i, i < framing s.cfg → Memory.read t.buf i = (s.cfg.lead ++ s.cfg.trail)[i]?) ∧
      (∀ i, framing s.cfg ≤ i → Memory.read t.buf i = Memory.read s.buf i) ∧
      t.contentLen = 0 ∧ t.xferLen.toNat = framing s.cfg ∧ t.stream = s.stream ∧ t.pos = s.pos

/-- R125: a SHOW frame reads exactly `3 * REQ_N` components and ends with `pos = 3 * REQ_N`; components beyond them are
never read; a CLEAR frame reads no stream. -/
def Obligations.EncoderReadsExactlyItsComponents : Prop :=
  ∀ (s : State) (pt : PatternTable) (r : Request) (rest : List Event), AboutToEncode s pt r rest →
    ∃ t, step s = .next t ∧ t.stream = s.stream ∧
      (r.kind = .showFrame → t.pos = 3 * r.pixels ∧
        ∀ beyond, step { s with stream := s.stream.take (3 * r.pixels) ++ beyond } =
          .next { t with stream := s.stream.take (3 * r.pixels) ++ beyond }) ∧
      (r.kind = .clear → t.pos = s.pos ∧
        ∀ other, step { s with stream := other } = .next { t with stream := other })

/-- R131, which the spec marks as derived from R120 and R125: a CLEAR frame's content is the ZERO-pattern 24n times between
the framing bytes, in the buffer and in the bytes the peripheral receives; and two CLEAR frames of one n, whatever else
differs between their states, are identical. -/
def Obligations.ClearFrameIsAllZero : Prop :=
  (∀ (s : State) (pt : PatternTable) (r : Request) (rest : List Event), AboutToEncode s pt r rest → r.kind = .clear →
    ∃ t, step s = .next t ∧
      Memory.readRange t.buf 0 (xlen s.cfg r.pixels) =
        .ok (s.cfg.lead ++ (List.replicate (24 * r.pixels) pt.zero).flatten ++ s.cfg.trail) ∧
      (0 < xlen s.cfg r.pixels →
        t.inflight = some (s.cfg.lead ++ (List.replicate (24 * r.pixels) pt.zero).flatten ++ s.cfg.trail))) ∧
  (∀ (s s' : State) (pt : PatternTable) (r r' : Request) (rest rest' : List Event),
    AboutToEncode s pt r rest → AboutToEncode s' pt r' rest' → s.cfg = s'.cfg →
    r.kind = .clear → r'.kind = .clear → r.pixels = r'.pixels → 0 < xlen s.cfg r.pixels →
    ∃ t t', step s = .next t ∧ step s' = .next t' ∧ t.inflight = t'.inflight ∧
      ∀ i, i < xlen s.cfg r.pixels → Memory.read t.buf i = Memory.read t'.buf i)

/-- R143's corner case, marked derived there: a SHOW with an all-zero stream of 3n bytes sends the same bytes as CLEAR n. -/
def Obligations.ZeroStreamShowEqualsClear : Prop :=
  ∀ (s : State) (pt : PatternTable) (r : Request) (rest : List Event), AboutToEncode s pt r rest →
    r.kind = .showFrame → s.stream = List.replicate (3 * r.pixels) 0x00 → 0 < xlen s.cfg r.pixels →
    ∃ t u bytes, step s = .next t ∧ step { s with req := some { r with kind := .clear, scale := 0 } } = .next u ∧
      t.inflight = some bytes ∧ u.inflight = some bytes

/-- R129, which the spec marks as derived from R120, R122 and R123: the content of a frame, read back by pattern match and regrouped into bytes, is the component stream. -/
def Obligations.ContentReadsBack : Prop :=
  ∀ (s : State) (pt : PatternTable) (r : Request) (rest : List Event), AboutToEncode s pt r rest →
    ∃ t bytes, step s = .next t ∧
      Memory.readRange t.buf s.cfg.lead.length (content s.cfg r.pixels) = .ok bytes ∧
      (r.kind = .showFrame →
        decodeContent pt s.cfg.n (3 * r.pixels) bytes = some (s.stream.take (3 * r.pixels))) ∧
      (r.kind = .clear →
        decodeContent pt s.cfg.n (3 * r.pixels) bytes = some (List.replicate (3 * r.pixels) 0x00))

/-- R25, R121: no byte a frame sends and no cell it writes depends on what the buffer held before. -/
def Obligations.FrameIgnoresOldBuffer : Prop :=
  ∀ (s : State) (pt : PatternTable) (r : Request) (rest : List Event) (old : Memory),
    AboutToEncode s pt r rest → Memory.wf old = true → (∀ cell ∈ old, cell.1 < s.cfg.bufBytes) →
    ∃ t u, step s = .next t ∧ step { s with buf := old } = .next u ∧ { u with buf := t.buf } = t ∧
      (∀ i, i < xlen s.cfg r.pixels → Memory.read u.buf i = Memory.read t.buf i)

/-- R124: a SHOW frame whose stream is short at pixel p raises the fault mark for p: nothing is sent, nothing
responds, the lengths stay, and the block stays in ENCODING. The next state with the mark is the model's form of the
fault (log entry 9). -/
def Obligations.ShortStreamRaisesTheMark : Prop :=
  ∀ (s : State) (r : Request) (rest : List Event),
    Inv s → s.fault = none → s.st = .encoding → s.req = some r → s.schedule = .encode :: rest →
    r.kind = .showFrame → s.stream.length < 3 * r.pixels →
    ∃ t, step s = .next t ∧ t.fault = some (.streamUnderrun (s.stream.length / 3)) ∧
      { t with buf := s.buf, pos := s.pos, fault := s.fault, schedule := s.schedule } = s

/-- R12, R154, P6: once the mark is set no block step is taken, and no step of any agent clears it. The fault as the
answer of a block event is the model's form (log entry 9). -/
def Obligations.MarkedBlockTakesNoStep : Prop :=
  ∀ (s : State) (p : Nat), s.fault = some (.streamUnderrun p) → s.cfg.wellFormed = true →
    (∀ e rest, s.schedule = e :: rest → e.ofBlock = true → step s = .fault (.streamUnderrun p)) ∧
    (∀ t, step s = .next t → t.fault = s.fault)

/-! ### The transfer, the timer and reset (42_transfer_sequencer.md, 70_reset_and_hazards.md) -/

/-- R146, R147: a frame with bytes is handed over whole: the peripheral gets `Buf[0 .. XLEN(n)-1]`, the log gets the
pending record, the block is in TRANSMITTING and has not responded. -/
def Obligations.EncodingHandsTheFrameOver : Prop :=
  ∀ (s : State) (pt : PatternTable) (r : Request) (rest : List Event), AboutToEncode s pt r rest →
    0 < xlen s.cfg r.pixels →
    ∃ t bytes, step s = .next t ∧
      Memory.readRange t.buf 0 (xlen s.cfg r.pixels) = .ok bytes ∧
      bytes = frameBytes s.cfg pt (componentsOf s r) ∧
      t.st = .transmitting ∧ t.inflight = some bytes ∧
      t.txlog = s.txlog ++ [{ bytes := bytes, outcome := .pending }] ∧
      t.err = s.err ∧ t.result = s.result ∧ t.respSeq = s.respSeq ∧ t.deadline = s.deadline

/-- R148: a frame of no bytes sends nothing and is finished at once; it arises only with no framing and no pixel. -/
def Obligations.ZeroLengthFrameFinishesAtOnce : Prop :=
  ∀ (s : State) (pt : PatternTable) (r : Request) (rest : List Event), AboutToEncode s pt r rest →
    xlen s.cfg r.pixels = 0 →
    s.cfg.lead = [] ∧ s.cfg.trail = [] ∧ r.pixels = 0 ∧
    step s =
      .next { s with
        schedule := rest
        contentLen := 0
        xferLen := 0
        deadline := s.now + s.cfg.holdoff
        st := .cooldown
        err := .ok
        result := 0
        respSeq := s.respSeq + 1 }

/-- R150: the peripheral's completion in TRANSMITTING; and R240: the same signal in any other state is ignored. That
second clause is the model's choice of R240's reading over R207's, and of what a disabled event does (log entries 10
and 5). -/
def Obligations.CompletionArmsTheHoldoff : Prop :=
  ∀ (s : State) (rest : List Event) (log : List TxRecord) (r : TxRecord),
    s.cfg.wellFormed = true → s.schedule = .transferDone :: rest →
    (s.st = .transmitting → s.txlog = log ++ [r] →
      step s =
        .next { s with
          schedule := rest
          inflight := none
          txlog := log ++ [{ r with outcome := .done }]
          deadline := s.now + s.cfg.holdoff
          st := .cooldown
          err := .ok
          result := s.xferLen
          respSeq := s.respSeq + 1 }) ∧
    (s.st ≠ .transmitting → step s = .next { s with schedule := rest })

/-- R151: the peripheral's failure in TRANSMITTING: IDLE, no hold-off, no retry; any prefix of the record's bytes
may have reached the line; and R240: the same signal in any other state is ignored. The last clause is the model's
choice (log entries 10 and 5), and the set of prefixes is its reading of the open rows I14 and I15 (log entry 15,
DEDUCED). -/
def Obligations.FailureReturnsToIdle : Prop :=
  (∀ (s : State) (rest : List Event) (log : List TxRecord) (r : TxRecord),
    s.cfg.wellFormed = true → s.schedule = .transferFailed :: rest →
    (s.st = .transmitting → s.txlog = log ++ [r] →
      step s =
        .next { s with
          schedule := rest
          inflight := none
          txlog := log ++ [{ r with outcome := .failed }]
          st := .idle
          err := .transfer
          result := 0
          respSeq := s.respSeq + 1 }) ∧
    (s.st ≠ .transmitting → step s = .next { s with schedule := rest })) ∧
  (∀ (sent line : List Byte),
    mayHaveReachedLine { bytes := sent, outcome := .failed } line = true ↔ ∃ unsent, line ++ unsent = sent)

/-- R149: COOLDOWN ends at a block step with `now >= deadline`, to IDLE and with nothing else changed; before that,
and in any other state, the event changes nothing. What the disabled event does is the model's choice (log entry 5). -/
def Obligations.CooldownEndsAtTheDeadline : Prop :=
  ∀ (s : State) (rest : List Event),
    s.cfg.wellFormed = true → s.fault = none → s.schedule = .endCooldown :: rest →
    (s.st = .cooldown → s.deadline ≤ s.now → step s = .next { s with schedule := rest, st := .idle }) ∧
    (s.st = .cooldown → s.now < s.deadline → step s = .next { s with schedule := rest }) ∧
    (s.st ≠ .cooldown → step s = .next { s with schedule := rest })

/-- R240, R241: the reset event, in every state. Block registers take their reset values and held words are
discarded; the configuration, the clock, the peripheral's transfer, the stream, the log and the mark stay. That the
model's own fields stay is its choice (log entry 10). -/
def Obligations.ResetKeepsTheOutside : Prop :=
  ∀ (s : State) (rest : List Event),
    s.cfg.wellFormed = true → s.schedule = .reset :: rest →
    step s =
      .next { s with
        schedule := rest
        st := .unconfigured
        pt := none
        buf := []
        req := none
        xferLen := 0
        deadline := 0
        err := .ok
        result := 0
        respSeq := 0
        contentLen := 0
        periphStarted := false
        held := [] }

/-- 10_state.md rules R22 to R33: what the machine holds at its start, whatever the configuration: STATUS reads
`0x00000008`, no cell and no register that the spec gives no value has one, and the clock is 0. -/
def Obligations.ResetValues : Prop :=
  ∀ c : Config,
    (State.resetWith c).st = .unconfigured ∧ (State.resetWith c).pt = none ∧
    (∀ a, Memory.read (State.resetWith c).buf a = none) ∧ (State.resetWith c).req = none ∧
    (State.resetWith c).xferLen = 0 ∧ (State.resetWith c).deadline = 0 ∧ (State.resetWith c).err = .ok ∧
    (State.resetWith c).result = 0 ∧ (State.resetWith c).respSeq = 0 ∧ (State.resetWith c).contentLen = 0 ∧
    (State.resetWith c).periphStarted = false ∧ (State.resetWith c).now = 0 ∧
    (State.resetWith c).inflight = none ∧ (State.resetWith c).txlog = [] ∧ (State.resetWith c).fault = none ∧
    statusWord (State.resetWith c) = 0x00000008

/-! ### The host's window and the line -/

/-- R36, with the numbers of R22 and R200: every field of STATUS, the number of every sequencer state and of every
error code, the reset value, and that a write of it is refused. -/
def Obligations.StatusFields : Prop :=
  (∀ c : Config, statusWord (State.resetWith c) = 0x00000008) ∧
  (∀ (s : State) (a : Access) (rest : List Event),
    s.cfg.wellFormed = true → s.schedule = .host a :: rest → a.kind = .write → a.addr = s.cfg.regBase + 0x04 →
    step s = .refused .undefinedAccess) ∧
  ∀ s : State,
    (statusWord s).extractLsb' 0 3 =
      (match s.st with
        | .unconfigured => 0
        | .idle => 1
        | .encoding => 2
        | .transmitting => 3
        | .cooldown => 4
        | .cfgError => 5 : BitVec 3) ∧
    ((statusWord s).getLsbD 3 = true ↔ s.st = .unconfigured ∨ s.st = .idle ∨ s.st = .cfgError) ∧
    ((statusWord s).getLsbD 3 = true → ∀ d, ready s.st d = true) ∧
    (statusWord s).extractLsb' 4 4 =
      (match s.err with
        | .ok => 0
        | .illegal => 1
        | .state => 2
        | .unusable => 3
        | .cfgPattern => 4
        | .cfgCapacity => 5
        | .overrun => 6
        | .transfer => 7 : BitVec 4) ∧
    (statusWord s).extractLsb' 8 16 = s.respSeq ∧
    (statusWord s).extractLsb' 24 8 = (0 : BitVec 8) ∧
    (s.st = .cooldown →
      (statusWord s).getLsbD 3 = false ∧ ready s.st (.ok .maxRate) = true ∧ ready s.st (.ok .init) = true)

/-- R60: an access is refused unless it is a 32-bit write at offset 0x00 or a 32-bit read at 0x04, 0x08 or 0x0C. -/
def Obligations.OnlyDefinedAccessesHaveMeaning : Prop :=
  ∀ (s : State) (a : Access) (rest : List Event),
    s.cfg.wellFormed = true → s.schedule = .host a :: rest →
    (step s = .refused .undefinedAccess ↔
      ¬(a.bits = 32 ∧
        ((a.kind = .write ∧ a.addr = s.cfg.regBase) ∨
          (a.kind = .read ∧
            (a.addr = s.cfg.regBase + 0x04 ∨ a.addr = s.cfg.regBase + 0x08 ∨ a.addr = s.cfg.regBase + 0x0C)))))

/-- R35, R37, R59: the three readable registers return STATUS, RESULT and CONTENT_LEN, and a read changes nothing
but the value the host holds. The field the value returns in is the model's (log entry 12). -/
def Obligations.ReadsReturnRegisters : Prop :=
  ∀ (s : State) (a : Access) (rest : List Event),
    s.cfg.wellFormed = true → s.schedule = .host a :: rest → a.kind = .read → a.bits = 32 →
    (a.addr = s.cfg.regBase + 0x04 → step s = .next { s with schedule := rest, readData := some (statusWord s) }) ∧
    (a.addr = s.cfg.regBase + 0x08 → step s = .next { s with schedule := rest, readData := some s.result }) ∧
    (a.addr = s.cfg.regBase + 0x0C → step s = .next { s with schedule := rest, readData := some s.contentLen })

/-- R140, R59: a CMD write presents its word, which is held behind the words already there; so two writes of one
word issue two commands. The list of held words is the model's form (log entry 7). -/
def Obligations.CommandWriteIsHeld : Prop :=
  ∀ (s : State) (a : Access) (rest : List Event),
    s.cfg.wellFormed = true → s.schedule = .host a :: rest → a.kind = .write → a.bits = 32 → a.addr = s.cfg.regBase →
    step s = .next { s with schedule := rest, held := s.held ++ [a.data] }

/-- R56: the line's level at every time of a transfer: bytes in ascending order, each most significant bit first, each bit
held for one bit period, a 1 bit high and a 0 bit low; and the transfer is over once every bit has been held. -/
def Obligations.LineFollowsTheBytes : Prop :=
  (∀ (period : Nat) (bytes : List Byte) (i j d : Nat) (v : Byte), 0 < period → bytes[i]? = some v → j < 8 → d < period →
    lineLevel period bytes ((8 * i + j) * period + d) = some (v.getLsbD (7 - j))) ∧
  (∀ (period : Nat) (bytes : List Byte) (time : Nat), 0 < period →
    (lineLevel period bytes time = none ↔ 8 * bytes.length * period ≤ time))

/-- R101 and the inferences the spec marks as derived from it in R101, R56 and R247: the high time of a pattern is the time
its bits hold the line high, and a transfer of len bytes lasts `8 * len` bit periods. -/
def Obligations.HighTimeIsTimeOnTheLine : Prop :=
  (∀ (period : Nat) (pat : List Byte), highTime period pat = (wireBits pat).count true * period) ∧
  (∀ (period : Nat) (bytes : List Byte), wireTime period bytes = 8 * bytes.length * period)

/-! ### Rules of the whole machine -/

/-- R10: what a well-formed configuration is, and that the machine takes no step with any other. -/
def Obligations.IllFormedConfigurationIsRefused : Prop :=
  (∀ c : Config, c.wellFormed = true ↔
    1 ≤ c.n ∧ (c.patMode = .const → c.oneConst.length = c.n ∧ c.zeroConst.length = c.n) ∧
      (c.patMode = .derive → 0 < c.bitPeriod) ∧ c.bufBytes < 2 ^ 32) ∧
  (∀ s : State, s.cfg.wellFormed = false → step s = .refused .illFormedConfig)

/-- The invariant holds at the machine's start, for every well-formed configuration and for the one of
`State.reset`. The configuration of `State.reset` is the model's choice (log entry 3). -/
def Obligations.InvariantAtReset : Prop :=
  (∀ c : Config, c.wellFormed = true → Inv (State.resetWith c)) ∧ Inv State.reset

/-- Every step keeps the invariant. -/
def Obligations.StepKeepsTheInvariant : Prop :=
  ∀ s t : State, Inv s → step s = .next t → Inv t

/-- Under the invariant the machine stops for two reasons only: a block step after the fault mark, and an undefined
register access. The forms of these stops are log entries 9, 12 and 13. -/
def Obligations.InvariantLimitsTheStops : Prop :=
  ∀ s : State, Inv s →
    (∀ f, step s = .fault f → ∃ p, s.fault = some (.streamUnderrun p) ∧ f = .streamUnderrun p) ∧
    (∀ q, step s = .refused q → q = .undefinedAccess ∧ ∃ a rest, s.schedule = .host a :: rest)

/-- R154: a step that changes the sequencer state takes one of the listed transitions, under the listed event. -/
def Obligations.OnlyListedTransitions : Prop :=
  ∀ s t : State, step s = .next t → t.st ≠ s.st →
    (∃ k w rest, s.schedule = .accept k :: rest ∧ s.held[k]? = some w ∧
      ((decode w = .ok .init ∧ s.st = .unconfigured ∧
          ((t.st = .cooldown ∧ t.err = .ok) ∨ (t.st = .cfgError ∧ (t.err = .cfgPattern ∨ t.err = .cfgCapacity)))) ∨
        (∃ n sc, (decode w = .ok (.showFrame n sc) ∨ decode w = .ok (.clear n)) ∧ n.toNat ≤ s.cfg.maxLeds ∧
          s.st = .idle ∧ t.st = .encoding))) ∨
    (∃ rest, s.schedule = .encode :: rest ∧ s.st = .encoding ∧
      ((t.st = .transmitting ∧ t.xferLen ≠ 0) ∨ (t.st = .cooldown ∧ t.xferLen = 0))) ∨
    (∃ rest, s.schedule = .transferDone :: rest ∧ s.st = .transmitting ∧ t.st = .cooldown) ∨
    (∃ rest, s.schedule = .transferFailed :: rest ∧ s.st = .transmitting ∧ t.st = .idle) ∨
    (∃ rest, s.schedule = .endCooldown :: rest ∧ s.st = .cooldown ∧ s.deadline ≤ s.now ∧ t.st = .idle) ∨
    (∃ rest, s.schedule = .reset :: rest ∧ t.st = .unconfigured)

/-- R23: only a successful INIT gives the pattern table its value, only reset takes it away, and no other step writes
it. -/
def Obligations.PatternTableIsWrittenByInitOnly : Prop :=
  ∀ s t : State, step s = .next t → t.pt ≠ s.pt →
    (∃ k w rest, s.schedule = .accept k :: rest ∧ s.held[k]? = some w ∧ decode w = .ok .init ∧
      s.st = .unconfigured ∧ t.pt = initPatterns s.cfg ∧ t.err = .ok) ∨
    (∃ rest, s.schedule = .reset :: rest ∧ t.pt = none)

/-- R50, R62: only the ENCODING step writes the buffer, and reset takes its values away. -/
def Obligations.OnlyEncodingWritesTheBuffer : Prop :=
  ∀ s t : State, step s = .next t → t.buf ≠ s.buf →
    (∃ rest, s.schedule = .encode :: rest ∧ s.st = .encoding) ∨
    (∃ rest, s.schedule = .reset :: rest ∧ t.buf = [])

/-- R8, R33, R34, R158: no step changes the configuration, only the clock agent changes the clock and only forward,
and the log only grows. That the configuration is a field of State is the model's choice (log entry 1). -/
def Obligations.OutsideStateOnlyGrows : Prop :=
  ∀ s t : State, step s = .next t →
    t.cfg = s.cfg ∧ s.now ≤ t.now ∧
    (t.now ≠ s.now → ∃ ticks rest, s.schedule = .clock ticks :: rest ∧ t.now = s.now + ticks) ∧
    (∃ sent, t.txlog.map TxRecord.bytes = s.txlog.map TxRecord.bytes ++ sent)

/-- R30, R204: a step leaves the response registers alone, or writes one response, or is a reset. -/
def Obligations.ResponsesComeOneAtATime : Prop :=
  ∀ s t : State, step s = .next t →
    (t.err = s.err ∧ t.result = s.result ∧ t.respSeq = s.respSeq) ∨
    (t.respSeq = s.respSeq + 1 ∧ (t.err ≠ .ok → t.result = 0)) ∨
    (∃ rest, s.schedule = .reset :: rest ∧ t.err = .ok ∧ t.result = 0 ∧ t.respSeq = 0)

/-- R155: after a transfer completes, no run without a reset reaches an ENCODING state before the hold-off is over.
The spec marks it derived from its acceptance, cooldown and completion rules. -/
def Obligations.HoldoffBeforeTheNextFrame : Prop :=
  ∀ (s t : State) (rest : List Event) (k : Nat),
    s.st = .transmitting → s.schedule = .transferDone :: rest → (∀ e ∈ rest, e ≠ .reset) →
    runSteps (k + 1) s = .next t → t.st = .encoding →
    s.now + s.cfg.holdoff ≤ t.now

/-- R152: with no signal from the peripheral and no reset the block stays in TRANSMITTING, sends nothing, responds
to nothing and holds every command, however long it runs. A run with no signal in its schedule is the model's form
of the silent peripheral (log entry 18). -/
def Obligations.SilentPeripheralHoldsEverything : Prop :=
  ∀ (s t : State) (k : Nat),
    s.st = .transmitting → (∀ e ∈ s.schedule, e.ofPeripheral = false ∧ e ≠ .reset) →
    runSteps k s = .next t →
    t.st = .transmitting ∧ t.txlog = s.txlog ∧ t.inflight = s.inflight ∧ t.respSeq = s.respSeq ∧ t.buf = s.buf ∧
    ∃ later, t.held = s.held ++ later

/-- R203, R7 and the model's log entry 5: with no event the machine waits and nothing changes; the color layer's event
only settles its next stream; and a block step chosen while it is not enabled changes nothing but the schedule. -/
def Obligations.DisabledEventsChangeNothing : Prop :=
  ∀ (s : State) (rest : List Event), s.cfg.wellFormed = true →
    (s.schedule = [] → step s = .next s) ∧
    (∀ stream, s.schedule = .colorLayer stream :: rest → step s = .next { s with schedule := rest, offer := stream }) ∧
    (∀ ticks, s.schedule = .clock ticks :: rest → step s = .next { s with schedule := rest, now := s.now + ticks }) ∧
    (∀ k, s.fault = none → s.schedule = .accept k :: rest → s.held[k]? = none →
      step s = .next { s with schedule := rest }) ∧
    (s.fault = none → s.schedule = .encode :: rest → s.st ≠ .encoding → step s = .next { s with schedule := rest })
end

