-- ==== Sys2Proof/Laws/Assembler.lean ====
section
/-! SUPPORT. The assembler's functions on the texts of R77: a text is read as a number exactly when it spells it, a word that
a text begins with is dropped, and the first comma splits a text. -/

namespace Sys2Proof.Machine

/-- The word a text begins with is dropped. -/
@[simp] theorem dropWord_append (word rest : List Char) : dropWord word (word ++ rest) = some rest := by
  induction word with
  | nil => rfl
  | cons c cs ih => simpa [dropWord] using ih

/-- A text from which a word is dropped begins with it. -/
theorem eq_append_of_dropWord {word text rest : List Char} (h : dropWord word text = some rest) : text = word ++ rest := by
  induction word generalizing text with
  | nil => simpa [dropWord] using h
  | cons w ws ih =>
    cases text with
    | nil => simp [dropWord] at h
    | cons c cs =>
      simp only [dropWord] at h
      split at h
      · rename_i hwc
        rw [hwc, ih h, List.cons_append]
      · cases h

/-- The first comma splits a text. -/
theorem splitAtComma_append {before : List Char} (h : ',' ∉ before) (after : List Char) :
    splitAtComma (before ++ ',' :: after) = some (before, after) := by
  induction before with
  | nil => rfl
  | cons c cs ih =>
    rw [List.mem_cons, not_or] at h
    simp [splitAtComma, Ne.symm h.1, ih h.2]

theorem eq_append_of_splitAtComma {text before after : List Char} (h : splitAtComma text = some (before, after)) :
    text = before ++ ',' :: after := by
  induction text generalizing before with
  | nil => cases h
  | cons c cs ih =>
    simp only [splitAtComma] at h
    split at h
    · rename_i hc
      cases h
      rw [hc, List.nil_append]
    · split at h
      · rename_i b a hs
        cases h
        rw [List.cons_append, ih hs]
      · cases h

/-- Digits are read one after the other. -/
theorem digitsValue_append (base : Nat) (digit : Char → Option Nat) (xs ys : List Char) (acc : Nat) :
    digitsValue base digit acc (xs ++ ys) =
      (digitsValue base digit acc xs).bind (fun v => digitsValue base digit v ys) := by
  induction xs generalizing acc with
  | nil => rfl
  | cons c cs ih =>
    simp only [digitsValue, List.cons_append]
    split
    · exact ih _
    · rfl

/-- A decimal digit is read exactly as its value. -/
theorem decDigit_iff {c : Char} {d : Nat} : decDigit c = some d ↔ IsDigit 10 c d := by
  constructor
  · intro h
    have hlt : c.toNat < 58 := by
      simp only [decDigit] at h
      split at h
      · rename_i hc
        exact Nat.lt_succ_of_le hc.2
      · cases h
    have all : ∀ k < 58, ∀ d ∈ decDigit (Char.ofNat k), IsDigit 10 (Char.ofNat k) d := by decide
    have hc := all c.toNat hlt d
    rw [Char.ofNat_toNat] at hc
    exact hc h
  · rintro ⟨hd, rfl | rfl⟩
    · exact (by decide : ∀ d < 10, decDigit (Nat.digitChar d) = some d) d hd
    · exact (by decide : ∀ d < 10, decDigit (Nat.digitChar d).toUpper = some d) d hd

/-- A hexadecimal digit, in either case, is read exactly as its value. -/
theorem hexDigit_iff {c : Char} {d : Nat} : hexDigit c = some d ↔ IsDigit 16 c d := by
  constructor
  · intro h
    have hlt : c.toNat < 103 := by
      simp only [hexDigit] at h
      split at h
      · rename_i hc
        exact Nat.lt_of_le_of_lt (show c.toNat ≤ 57 from hc.2) (by decide)
      split at h
      · rename_i hc
        exact Nat.lt_succ_of_le (show c.toNat ≤ 102 from hc.2)
      split at h
      · rename_i hc
        exact Nat.lt_of_le_of_lt (show c.toNat ≤ 70 from hc.2) (by decide)
      · cases h
    have all : ∀ k < 103, ∀ d ∈ hexDigit (Char.ofNat k), IsDigit 16 (Char.ofNat k) d := by decide
    have hc := all c.toNat hlt d
    rw [Char.ofNat_toNat] at hc
    exact hc h
  · rintro ⟨hd, rfl | rfl⟩
    · exact (by decide : ∀ d < 16, hexDigit (Nat.digitChar d) = some d) d hd
    · exact (by decide : ∀ d < 16, hexDigit (Nat.digitChar d).toUpper = some d) d hd

/-- The digits' value, where there is a digit, is the one they spell. -/
theorem digitsValue_iff {base : Nat} {digit : Char → Option Nat} (hd : ∀ {c d}, digit c = some d ↔ IsDigit base c d)
    {text : List Char} {v : Nat} :
    text ≠ [] ∧ digitsValue base digit 0 text = some v ↔ DigitsSpell base text v := by
  have last : ∀ c acc, digitsValue base digit acc [c] = (digit c).map (acc * base + ·) := fun c acc => by
    simp only [digitsValue]
    cases digit c <;> rfl
  constructor
  · rintro ⟨hne, hv⟩
    induction text using List.reverseRecOn generalizing v with
    | nil => exact absurd rfl hne
    | append_singleton cs c ih =>
      rw [digitsValue_append, Option.bind_eq_some_iff] at hv
      obtain ⟨u, hu, hc⟩ := hv
      rw [last, Option.map_eq_some_iff] at hc
      obtain ⟨d, hdig, rfl⟩ := hc
      by_cases hcs : cs = []
      · subst hcs
        cases hu
        simpa using DigitsSpell.one (hd.mp hdig)
      · exact .more (ih hcs hu) (hd.mp hdig)
  · intro h
    induction h with
    | one h => simp [last, hd.mpr h]
    | more _ h ih => simp [digitsValue_append, ih.2, last, hd.mpr h]

/-- Every character of a digit string is a digit. -/
theorem DigitsSpell.mem {base : Nat} {text : List Char} {v : Nat} (h : DigitsSpell base text v) {c : Char}
    (hc : c ∈ text) : ∃ d, IsDigit base c d := by
  induction h with
  | one h => exact ⟨_, List.mem_singleton.mp hc ▸ h⟩
  | more _ h ih =>
    rcases List.mem_append.mp hc with hc | hc
    · exact ih hc
    · exact ⟨_, List.mem_singleton.mp hc ▸ h⟩

/-- The comma is no digit. -/
theorem not_isDigit_comma : ¬ ∃ d, IsDigit 16 ',' d := fun ⟨d, hd, h⟩ =>
  (by decide : ∀ d < 16, ¬(',' = Nat.digitChar d ∨ ',' = (Nat.digitChar d).toUpper)) d hd h

/-- The letter of `0x` is no digit. -/
theorem not_isDigit_x : ¬ ∃ d, IsDigit 16 'x' d := fun ⟨d, hd, h⟩ =>
  (by decide : ∀ d < 16, ¬('x' = Nat.digitChar d ∨ 'x' = (Nat.digitChar d).toUpper)) d hd h

/-- A decimal digit is a hexadecimal digit. -/
theorem IsDigit.mono {c : Char} (h : ∃ d, IsDigit 10 c d) : ∃ d, IsDigit 16 c d :=
  let ⟨d, hd, hc⟩ := h
  ⟨d, by omega, hc⟩

/-- A text is read as a number exactly when it spells it (R77). -/
theorem numberValue_iff {text : List Char} {n : Nat} : numberValue text = some n ↔ NumberSpells text n := by
  rw [NumberSpells, ← digitsValue_iff decDigit_iff]
  cases hx : dropWord ['0', 'x'] text with
  | none =>
    have hno : ¬ ∃ digits, text = '0' :: 'x' :: digits ∧ DigitsSpell 16 digits n := by
      rintro ⟨digits, rfl, _⟩
      exact absurd ((dropWord_append ['0', 'x'] digits).symm.trans hx) (by simp)
    simp only [numberValue, hx, hno, or_false]
    split <;> simp_all
  | some digits =>
    have ht : text = '0' :: 'x' :: digits := eq_append_of_dropWord hx
    have hno : ¬(text ≠ [] ∧ digitsValue 10 decDigit 0 text = some n) := fun h =>
      not_isDigit_x (IsDigit.mono (((digitsValue_iff decDigit_iff).mp h).mem (by simp [ht])))
    have hval : numberValue text = some n ↔ digits ≠ [] ∧ digitsValue 16 hexDigit 0 digits = some n := by
      simp only [numberValue, hx]
      cases digits <;> simp
    rw [hval, digitsValue_iff hexDigit_iff]
    constructor
    · exact fun h => .inr ⟨digits, ht, h⟩
    · rintro (h | ⟨digits', h', h⟩)
      · exact absurd h hno
      · rw [ht] at h'
        simp only [List.cons.injEq, true_and] at h'
        exact h' ▸ h

/-- An operand's text is read as the operand, within its range (R77). -/
theorem operandValue_spells (w : Nat) {text : List Char} {n : Nat} (h : NumberSpells text n) :
    operandValue w text = if n < 2 ^ w then some (BitVec.ofNat w n) else none := by
  rw [operandValue, numberValue_iff.mpr h]

/-- A text that is read as an operand spells a number in its range. -/
theorem spells_of_operandValue {w : Nat} {text : List Char} {v : BitVec w} (h : operandValue w text = some v) :
    ∃ n, NumberSpells text n ∧ n < 2 ^ w := by
  simp only [operandValue] at h
  split at h
  · rename_i n hn
    split at h
    · exact ⟨n, numberValue_iff.mp hn, ‹_›⟩
    · cases h
  · cases h

/-- No number's text holds a comma. -/
theorem NumberSpells.comma_not_mem {text : List Char} {n : Nat} (h : NumberSpells text n) : ',' ∉ text := by
  intro hc
  rcases h with h | ⟨digits, rfl, h⟩
  · exact not_isDigit_comma (IsDigit.mono (h.mem hc))
  · simp only [List.mem_cons] at hc
    rcases hc with hc | hc | hc
    · exact absurd hc (by decide)
    · exact absurd hc (by decide)
    · exact not_isDigit_comma (h.mem hc)

/-- The shortest digit string of a number spells it. -/
theorem digitsSpell_toDigits {base : Nat} (hb : 1 < base) (n : Nat) : DigitsSpell base (Nat.toDigits base n) n := by
  induction n using Nat.strongRecOn with
  | ind n ih =>
    rw [Nat.toDigits_eq_if hb]
    split
    · exact .one ⟨‹_›, .inl rfl⟩
    · have h := DigitsSpell.more (ih (n / base) (Nat.div_lt_self (by omega) hb))
        (d := n % base) ⟨Nat.mod_lt n (by omega), .inl rfl⟩
      rwa [Nat.div_add_mod'] at h

/-- Every number has a decimal and a hexadecimal text. -/
theorem spells_of_mem_numerals {n : Nat} {text : List Char} (h : text ∈ numerals n) : NumberSpells text n := by
  simp only [numerals, List.mem_cons, List.not_mem_nil, or_false] at h
  rcases h with rfl | rfl
  · exact .inl (digitsSpell_toDigits (by decide) n)
  · exact .inr ⟨_, rfl, digitsSpell_toDigits (by decide) n⟩

/-- A text of SHOW's form is read by its operands. -/
theorem parseCommand_showText {nText : List Char} (h : ',' ∉ nText) (scText : List Char) :
    parseCommand (showText nText scText) =
      match operandValue 20 nText with
      | some nLeds => (operandValue 8 scText).map (Instr.showFrame nLeds)
      | none => none := by
  have hd : dropWord ['S', 'H', 'O', 'W', ' '] (showText nText scText) = some (nText ++ ',' :: ' ' :: scText) := by
    rw [showText, List.append_assoc, List.append_assoc, dropWord_append]; rfl
  have hs : splitAtComma (nText ++ ',' :: ' ' :: scText) = some (nText, ' ' :: scText) := splitAtComma_append h _
  have hb : dropWord [' '] (' ' :: scText) = some scText := dropWord_append [' '] scText
  rw [parseCommand, if_neg (by simp [showText]), if_neg (by simp [showText]), hd]
  simp only [showOperands, hs, hb]
  cases operandValue 20 nText <;> rfl

/-- A text of CLEAR's form is read by its operand. -/
theorem parseCommand_clearText (nText : List Char) :
    parseCommand (clearText nText) = (operandValue 20 nText).map Instr.clear := by
  have hd : dropWord ['C', 'L', 'E', 'A', 'R', ' '] (clearText nText) = some nText := dropWord_append _ nText
  have hs : dropWord ['S', 'H', 'O', 'W', ' '] (clearText nText) = none := rfl
  rw [parseCommand, if_neg (by simp [clearText]), if_neg (by simp [clearText]), hs, hd]

/-- Every text that spells a command has one of the four forms of R77, its operands numbers in range. -/
theorem parseCommand_cases {text : List Char} {i : Instr} (h : parseCommand text = some i) :
    text = ['I', 'N', 'I', 'T'] ∨ text = ['M', 'A', 'X', 'R', 'A', 'T', 'E'] ∨
      (∃ n sc nText scText, NumberSpells nText n ∧ NumberSpells scText sc ∧ n < 2 ^ 20 ∧ sc < 2 ^ 8 ∧
        text = showText nText scText) ∨
      ∃ n nText, NumberSpells nText n ∧ n < 2 ^ 20 ∧ text = clearText nText := by
  simp only [parseCommand] at h
  split at h
  · exact .inl ‹_›
  split at h
  · exact .inr (.inl ‹_›)
  split at h
  · rename_i rest hr
    simp only [showOperands] at h
    split at h
    · cases h
    · rename_i before after hs
      split at h
      · rename_i nLeds scText hn hb
        obtain ⟨scale, hsc, _⟩ := Option.map_eq_some_iff.mp h
        obtain ⟨n, hn, hn'⟩ := spells_of_operandValue hn
        obtain ⟨sc, hsc, hsc'⟩ := spells_of_operandValue hsc
        refine .inr (.inr (.inl ⟨n, sc, before, scText, hn, hsc, hn', hsc', ?_⟩))
        rw [eq_append_of_dropWord hr, eq_append_of_splitAtComma hs, eq_append_of_dropWord hb]
        simp [showText]
      · cases h
  · split at h
    · rename_i rest hr
      obtain ⟨nLeds, hn, _⟩ := Option.map_eq_some_iff.mp h
      obtain ⟨n, hn, hn'⟩ := spells_of_operandValue hn
      exact .inr (.inr (.inr ⟨n, rest, hn, hn', eq_append_of_dropWord hr⟩))
    · cases h

end Sys2Proof.Machine
end

