-- ==== Sys2Proof/Laws/State.lean ====
section
/-! SUPPORT. What each named update of the state does to each field, true by definition: no later proof unfolds a record
update. A field the update does not name keeps its value. -/

namespace Sys2Proof.Machine

/-! ### respond -/

@[simp] theorem respond_cfg (s : State) (e : ErrCode) (v : BitVec 32) : (respond s e v).cfg = s.cfg := rfl
@[simp] theorem respond_st (s : State) (e : ErrCode) (v : BitVec 32) : (respond s e v).st = s.st := rfl
@[simp] theorem respond_pt (s : State) (e : ErrCode) (v : BitVec 32) : (respond s e v).pt = s.pt := rfl
@[simp] theorem respond_buf (s : State) (e : ErrCode) (v : BitVec 32) : (respond s e v).buf = s.buf := rfl
@[simp] theorem respond_req (s : State) (e : ErrCode) (v : BitVec 32) : (respond s e v).req = s.req := rfl
@[simp] theorem respond_xferLen (s : State) (e : ErrCode) (v : BitVec 32) : (respond s e v).xferLen = s.xferLen := rfl
@[simp] theorem respond_deadline (s : State) (e : ErrCode) (v : BitVec 32) : (respond s e v).deadline = s.deadline := rfl
@[simp] theorem respond_err (s : State) (e : ErrCode) (v : BitVec 32) : (respond s e v).err = e := rfl
@[simp] theorem respond_result (s : State) (e : ErrCode) (v : BitVec 32) : (respond s e v).result = v := rfl
@[simp] theorem respond_respSeq (s : State) (e : ErrCode) (v : BitVec 32) : (respond s e v).respSeq = s.respSeq + 1 := rfl
@[simp] theorem respond_contentLen (s : State) (e : ErrCode) (v : BitVec 32) : (respond s e v).contentLen = s.contentLen := rfl
@[simp] theorem respond_periphStarted (s : State) (e : ErrCode) (v : BitVec 32) : (respond s e v).periphStarted = s.periphStarted := rfl
@[simp] theorem respond_held (s : State) (e : ErrCode) (v : BitVec 32) : (respond s e v).held = s.held := rfl
@[simp] theorem respond_now (s : State) (e : ErrCode) (v : BitVec 32) : (respond s e v).now = s.now := rfl
@[simp] theorem respond_inflight (s : State) (e : ErrCode) (v : BitVec 32) : (respond s e v).inflight = s.inflight := rfl
@[simp] theorem respond_stream (s : State) (e : ErrCode) (v : BitVec 32) : (respond s e v).stream = s.stream := rfl
@[simp] theorem respond_pos (s : State) (e : ErrCode) (v : BitVec 32) : (respond s e v).pos = s.pos := rfl
@[simp] theorem respond_txlog (s : State) (e : ErrCode) (v : BitVec 32) : (respond s e v).txlog = s.txlog := rfl
@[simp] theorem respond_fault (s : State) (e : ErrCode) (v : BitVec 32) : (respond s e v).fault = s.fault := rfl
@[simp] theorem respond_schedule (s : State) (e : ErrCode) (v : BitVec 32) : (respond s e v).schedule = s.schedule := rfl
@[simp] theorem respond_offer (s : State) (e : ErrCode) (v : BitVec 32) : (respond s e v).offer = s.offer := rfl
@[simp] theorem respond_readData (s : State) (e : ErrCode) (v : BitVec 32) : (respond s e v).readData = s.readData := rfl

/-! ### raiseError -/

@[simp] theorem raiseError_cfg (s : State) (e : ErrCode) : (raiseError s e).cfg = s.cfg := rfl
@[simp] theorem raiseError_st (s : State) (e : ErrCode) : (raiseError s e).st = s.st := rfl
@[simp] theorem raiseError_pt (s : State) (e : ErrCode) : (raiseError s e).pt = s.pt := rfl
@[simp] theorem raiseError_buf (s : State) (e : ErrCode) : (raiseError s e).buf = s.buf := rfl
@[simp] theorem raiseError_req (s : State) (e : ErrCode) : (raiseError s e).req = s.req := rfl
@[simp] theorem raiseError_xferLen (s : State) (e : ErrCode) : (raiseError s e).xferLen = s.xferLen := rfl
@[simp] theorem raiseError_deadline (s : State) (e : ErrCode) : (raiseError s e).deadline = s.deadline := rfl
@[simp] theorem raiseError_err (s : State) (e : ErrCode) : (raiseError s e).err = e := rfl
@[simp] theorem raiseError_result (s : State) (e : ErrCode) : (raiseError s e).result = 0 := rfl
@[simp] theorem raiseError_respSeq (s : State) (e : ErrCode) : (raiseError s e).respSeq = s.respSeq + 1 := rfl
@[simp] theorem raiseError_contentLen (s : State) (e : ErrCode) : (raiseError s e).contentLen = s.contentLen := rfl
@[simp] theorem raiseError_periphStarted (s : State) (e : ErrCode) : (raiseError s e).periphStarted = s.periphStarted := rfl
@[simp] theorem raiseError_held (s : State) (e : ErrCode) : (raiseError s e).held = s.held := rfl
@[simp] theorem raiseError_now (s : State) (e : ErrCode) : (raiseError s e).now = s.now := rfl
@[simp] theorem raiseError_inflight (s : State) (e : ErrCode) : (raiseError s e).inflight = s.inflight := rfl
@[simp] theorem raiseError_stream (s : State) (e : ErrCode) : (raiseError s e).stream = s.stream := rfl
@[simp] theorem raiseError_pos (s : State) (e : ErrCode) : (raiseError s e).pos = s.pos := rfl
@[simp] theorem raiseError_txlog (s : State) (e : ErrCode) : (raiseError s e).txlog = s.txlog := rfl
@[simp] theorem raiseError_fault (s : State) (e : ErrCode) : (raiseError s e).fault = s.fault := rfl
@[simp] theorem raiseError_schedule (s : State) (e : ErrCode) : (raiseError s e).schedule = s.schedule := rfl
@[simp] theorem raiseError_offer (s : State) (e : ErrCode) : (raiseError s e).offer = s.offer := rfl
@[simp] theorem raiseError_readData (s : State) (e : ErrCode) : (raiseError s e).readData = s.readData := rfl

/-! ### enterCfgError -/

@[simp] theorem enterCfgError_cfg (s : State) : (enterCfgError s).cfg = s.cfg := rfl
@[simp] theorem enterCfgError_st (s : State) : (enterCfgError s).st = .cfgError := rfl
@[simp] theorem enterCfgError_pt (s : State) : (enterCfgError s).pt = s.pt := rfl
@[simp] theorem enterCfgError_buf (s : State) : (enterCfgError s).buf = s.buf := rfl
@[simp] theorem enterCfgError_req (s : State) : (enterCfgError s).req = s.req := rfl
@[simp] theorem enterCfgError_xferLen (s : State) : (enterCfgError s).xferLen = s.xferLen := rfl
@[simp] theorem enterCfgError_deadline (s : State) : (enterCfgError s).deadline = s.deadline := rfl
@[simp] theorem enterCfgError_err (s : State) : (enterCfgError s).err = s.err := rfl
@[simp] theorem enterCfgError_result (s : State) : (enterCfgError s).result = s.result := rfl
@[simp] theorem enterCfgError_respSeq (s : State) : (enterCfgError s).respSeq = s.respSeq := rfl
@[simp] theorem enterCfgError_contentLen (s : State) : (enterCfgError s).contentLen = s.contentLen := rfl
@[simp] theorem enterCfgError_periphStarted (s : State) : (enterCfgError s).periphStarted = s.periphStarted := rfl
@[simp] theorem enterCfgError_held (s : State) : (enterCfgError s).held = s.held := rfl
@[simp] theorem enterCfgError_now (s : State) : (enterCfgError s).now = s.now := rfl
@[simp] theorem enterCfgError_inflight (s : State) : (enterCfgError s).inflight = s.inflight := rfl
@[simp] theorem enterCfgError_stream (s : State) : (enterCfgError s).stream = s.stream := rfl
@[simp] theorem enterCfgError_pos (s : State) : (enterCfgError s).pos = s.pos := rfl
@[simp] theorem enterCfgError_txlog (s : State) : (enterCfgError s).txlog = s.txlog := rfl
@[simp] theorem enterCfgError_fault (s : State) : (enterCfgError s).fault = s.fault := rfl
@[simp] theorem enterCfgError_schedule (s : State) : (enterCfgError s).schedule = s.schedule := rfl
@[simp] theorem enterCfgError_offer (s : State) : (enterCfgError s).offer = s.offer := rfl
@[simp] theorem enterCfgError_readData (s : State) : (enterCfgError s).readData = s.readData := rfl

/-! ### configureBlock -/

@[simp] theorem configureBlock_cfg (s : State) (pt : PatternTable) : (configureBlock s pt).cfg = s.cfg := rfl
@[simp] theorem configureBlock_st (s : State) (pt : PatternTable) : (configureBlock s pt).st = .cooldown := rfl
@[simp] theorem configureBlock_pt (s : State) (pt : PatternTable) : (configureBlock s pt).pt = some pt := rfl
@[simp] theorem configureBlock_buf (s : State) (pt : PatternTable) : (configureBlock s pt).buf = s.buf := rfl
@[simp] theorem configureBlock_req (s : State) (pt : PatternTable) : (configureBlock s pt).req = s.req := rfl
@[simp] theorem configureBlock_xferLen (s : State) (pt : PatternTable) : (configureBlock s pt).xferLen = s.xferLen := rfl
@[simp] theorem configureBlock_deadline (s : State) (pt : PatternTable) : (configureBlock s pt).deadline = s.now + s.cfg.startupDelay := rfl
@[simp] theorem configureBlock_err (s : State) (pt : PatternTable) : (configureBlock s pt).err = s.err := rfl
@[simp] theorem configureBlock_result (s : State) (pt : PatternTable) : (configureBlock s pt).result = s.result := rfl
@[simp] theorem configureBlock_respSeq (s : State) (pt : PatternTable) : (configureBlock s pt).respSeq = s.respSeq := rfl
@[simp] theorem configureBlock_contentLen (s : State) (pt : PatternTable) : (configureBlock s pt).contentLen = s.contentLen := rfl
@[simp] theorem configureBlock_periphStarted (s : State) (pt : PatternTable) : (configureBlock s pt).periphStarted = true := rfl
@[simp] theorem configureBlock_held (s : State) (pt : PatternTable) : (configureBlock s pt).held = s.held := rfl
@[simp] theorem configureBlock_now (s : State) (pt : PatternTable) : (configureBlock s pt).now = s.now := rfl
@[simp] theorem configureBlock_inflight (s : State) (pt : PatternTable) : (configureBlock s pt).inflight = s.inflight := rfl
@[simp] theorem configureBlock_stream (s : State) (pt : PatternTable) : (configureBlock s pt).stream = s.stream := rfl
@[simp] theorem configureBlock_pos (s : State) (pt : PatternTable) : (configureBlock s pt).pos = s.pos := rfl
@[simp] theorem configureBlock_txlog (s : State) (pt : PatternTable) : (configureBlock s pt).txlog = s.txlog := rfl
@[simp] theorem configureBlock_fault (s : State) (pt : PatternTable) : (configureBlock s pt).fault = s.fault := rfl
@[simp] theorem configureBlock_schedule (s : State) (pt : PatternTable) : (configureBlock s pt).schedule = s.schedule := rfl
@[simp] theorem configureBlock_offer (s : State) (pt : PatternTable) : (configureBlock s pt).offer = s.offer := rfl
@[simp] theorem configureBlock_readData (s : State) (pt : PatternTable) : (configureBlock s pt).readData = s.readData := rfl

/-! ### latchShow -/

@[simp] theorem latchShow_cfg (s : State) (n : BitVec 20) (x : BitVec 8) : (latchShow s n x).cfg = s.cfg := rfl
@[simp] theorem latchShow_st (s : State) (n : BitVec 20) (x : BitVec 8) : (latchShow s n x).st = .encoding := rfl
@[simp] theorem latchShow_pt (s : State) (n : BitVec 20) (x : BitVec 8) : (latchShow s n x).pt = s.pt := rfl
@[simp] theorem latchShow_buf (s : State) (n : BitVec 20) (x : BitVec 8) : (latchShow s n x).buf = s.buf := rfl
@[simp] theorem latchShow_req (s : State) (n : BitVec 20) (x : BitVec 8) : (latchShow s n x).req = some { kind := .showFrame, n := n, scale := x } := rfl
@[simp] theorem latchShow_xferLen (s : State) (n : BitVec 20) (x : BitVec 8) : (latchShow s n x).xferLen = s.xferLen := rfl
@[simp] theorem latchShow_deadline (s : State) (n : BitVec 20) (x : BitVec 8) : (latchShow s n x).deadline = s.deadline := rfl
@[simp] theorem latchShow_err (s : State) (n : BitVec 20) (x : BitVec 8) : (latchShow s n x).err = s.err := rfl
@[simp] theorem latchShow_result (s : State) (n : BitVec 20) (x : BitVec 8) : (latchShow s n x).result = s.result := rfl
@[simp] theorem latchShow_respSeq (s : State) (n : BitVec 20) (x : BitVec 8) : (latchShow s n x).respSeq = s.respSeq := rfl
@[simp] theorem latchShow_contentLen (s : State) (n : BitVec 20) (x : BitVec 8) : (latchShow s n x).contentLen = s.contentLen := rfl
@[simp] theorem latchShow_periphStarted (s : State) (n : BitVec 20) (x : BitVec 8) : (latchShow s n x).periphStarted = s.periphStarted := rfl
@[simp] theorem latchShow_held (s : State) (n : BitVec 20) (x : BitVec 8) : (latchShow s n x).held = s.held := rfl
@[simp] theorem latchShow_now (s : State) (n : BitVec 20) (x : BitVec 8) : (latchShow s n x).now = s.now := rfl
@[simp] theorem latchShow_inflight (s : State) (n : BitVec 20) (x : BitVec 8) : (latchShow s n x).inflight = s.inflight := rfl
@[simp] theorem latchShow_stream (s : State) (n : BitVec 20) (x : BitVec 8) : (latchShow s n x).stream = s.offer := rfl
@[simp] theorem latchShow_pos (s : State) (n : BitVec 20) (x : BitVec 8) : (latchShow s n x).pos = 0 := rfl
@[simp] theorem latchShow_txlog (s : State) (n : BitVec 20) (x : BitVec 8) : (latchShow s n x).txlog = s.txlog := rfl
@[simp] theorem latchShow_fault (s : State) (n : BitVec 20) (x : BitVec 8) : (latchShow s n x).fault = s.fault := rfl
@[simp] theorem latchShow_schedule (s : State) (n : BitVec 20) (x : BitVec 8) : (latchShow s n x).schedule = s.schedule := rfl
@[simp] theorem latchShow_offer (s : State) (n : BitVec 20) (x : BitVec 8) : (latchShow s n x).offer = s.offer := rfl
@[simp] theorem latchShow_readData (s : State) (n : BitVec 20) (x : BitVec 8) : (latchShow s n x).readData = s.readData := rfl

/-! ### latchClear -/

@[simp] theorem latchClear_cfg (s : State) (n : BitVec 20) : (latchClear s n).cfg = s.cfg := rfl
@[simp] theorem latchClear_st (s : State) (n : BitVec 20) : (latchClear s n).st = .encoding := rfl
@[simp] theorem latchClear_pt (s : State) (n : BitVec 20) : (latchClear s n).pt = s.pt := rfl
@[simp] theorem latchClear_buf (s : State) (n : BitVec 20) : (latchClear s n).buf = s.buf := rfl
@[simp] theorem latchClear_req (s : State) (n : BitVec 20) : (latchClear s n).req = some { kind := .clear, n := n, scale := 0 } := rfl
@[simp] theorem latchClear_xferLen (s : State) (n : BitVec 20) : (latchClear s n).xferLen = s.xferLen := rfl
@[simp] theorem latchClear_deadline (s : State) (n : BitVec 20) : (latchClear s n).deadline = s.deadline := rfl
@[simp] theorem latchClear_err (s : State) (n : BitVec 20) : (latchClear s n).err = s.err := rfl
@[simp] theorem latchClear_result (s : State) (n : BitVec 20) : (latchClear s n).result = s.result := rfl
@[simp] theorem latchClear_respSeq (s : State) (n : BitVec 20) : (latchClear s n).respSeq = s.respSeq := rfl
@[simp] theorem latchClear_contentLen (s : State) (n : BitVec 20) : (latchClear s n).contentLen = s.contentLen := rfl
@[simp] theorem latchClear_periphStarted (s : State) (n : BitVec 20) : (latchClear s n).periphStarted = s.periphStarted := rfl
@[simp] theorem latchClear_held (s : State) (n : BitVec 20) : (latchClear s n).held = s.held := rfl
@[simp] theorem latchClear_now (s : State) (n : BitVec 20) : (latchClear s n).now = s.now := rfl
@[simp] theorem latchClear_inflight (s : State) (n : BitVec 20) : (latchClear s n).inflight = s.inflight := rfl
@[simp] theorem latchClear_stream (s : State) (n : BitVec 20) : (latchClear s n).stream = s.stream := rfl
@[simp] theorem latchClear_pos (s : State) (n : BitVec 20) : (latchClear s n).pos = s.pos := rfl
@[simp] theorem latchClear_txlog (s : State) (n : BitVec 20) : (latchClear s n).txlog = s.txlog := rfl
@[simp] theorem latchClear_fault (s : State) (n : BitVec 20) : (latchClear s n).fault = s.fault := rfl
@[simp] theorem latchClear_schedule (s : State) (n : BitVec 20) : (latchClear s n).schedule = s.schedule := rfl
@[simp] theorem latchClear_offer (s : State) (n : BitVec 20) : (latchClear s n).offer = s.offer := rfl
@[simp] theorem latchClear_readData (s : State) (n : BitVec 20) : (latchClear s n).readData = s.readData := rfl

/-! ### finishEmptyFrame -/

@[simp] theorem finishEmptyFrame_cfg (s : State) : (finishEmptyFrame s).cfg = s.cfg := rfl
@[simp] theorem finishEmptyFrame_st (s : State) : (finishEmptyFrame s).st = .cooldown := rfl
@[simp] theorem finishEmptyFrame_pt (s : State) : (finishEmptyFrame s).pt = s.pt := rfl
@[simp] theorem finishEmptyFrame_buf (s : State) : (finishEmptyFrame s).buf = s.buf := rfl
@[simp] theorem finishEmptyFrame_req (s : State) : (finishEmptyFrame s).req = s.req := rfl
@[simp] theorem finishEmptyFrame_xferLen (s : State) : (finishEmptyFrame s).xferLen = s.xferLen := rfl
@[simp] theorem finishEmptyFrame_deadline (s : State) : (finishEmptyFrame s).deadline = s.now + s.cfg.holdoff := rfl
@[simp] theorem finishEmptyFrame_err (s : State) : (finishEmptyFrame s).err = .ok := rfl
@[simp] theorem finishEmptyFrame_result (s : State) : (finishEmptyFrame s).result = 0 := rfl
@[simp] theorem finishEmptyFrame_respSeq (s : State) : (finishEmptyFrame s).respSeq = s.respSeq + 1 := rfl
@[simp] theorem finishEmptyFrame_contentLen (s : State) : (finishEmptyFrame s).contentLen = s.contentLen := rfl
@[simp] theorem finishEmptyFrame_periphStarted (s : State) : (finishEmptyFrame s).periphStarted = s.periphStarted := rfl
@[simp] theorem finishEmptyFrame_held (s : State) : (finishEmptyFrame s).held = s.held := rfl
@[simp] theorem finishEmptyFrame_now (s : State) : (finishEmptyFrame s).now = s.now := rfl
@[simp] theorem finishEmptyFrame_inflight (s : State) : (finishEmptyFrame s).inflight = s.inflight := rfl
@[simp] theorem finishEmptyFrame_stream (s : State) : (finishEmptyFrame s).stream = s.stream := rfl
@[simp] theorem finishEmptyFrame_pos (s : State) : (finishEmptyFrame s).pos = s.pos := rfl
@[simp] theorem finishEmptyFrame_txlog (s : State) : (finishEmptyFrame s).txlog = s.txlog := rfl
@[simp] theorem finishEmptyFrame_fault (s : State) : (finishEmptyFrame s).fault = s.fault := rfl
@[simp] theorem finishEmptyFrame_schedule (s : State) : (finishEmptyFrame s).schedule = s.schedule := rfl
@[simp] theorem finishEmptyFrame_offer (s : State) : (finishEmptyFrame s).offer = s.offer := rfl
@[simp] theorem finishEmptyFrame_readData (s : State) : (finishEmptyFrame s).readData = s.readData := rfl

/-! ### completeTransfer -/

@[simp] theorem completeTransfer_cfg (s : State) : (completeTransfer s).cfg = s.cfg := rfl
@[simp] theorem completeTransfer_st (s : State) : (completeTransfer s).st = .cooldown := rfl
@[simp] theorem completeTransfer_pt (s : State) : (completeTransfer s).pt = s.pt := rfl
@[simp] theorem completeTransfer_buf (s : State) : (completeTransfer s).buf = s.buf := rfl
@[simp] theorem completeTransfer_req (s : State) : (completeTransfer s).req = s.req := rfl
@[simp] theorem completeTransfer_xferLen (s : State) : (completeTransfer s).xferLen = s.xferLen := rfl
@[simp] theorem completeTransfer_deadline (s : State) : (completeTransfer s).deadline = s.now + s.cfg.holdoff := rfl
@[simp] theorem completeTransfer_err (s : State) : (completeTransfer s).err = .ok := rfl
@[simp] theorem completeTransfer_result (s : State) : (completeTransfer s).result = s.xferLen := rfl
@[simp] theorem completeTransfer_respSeq (s : State) : (completeTransfer s).respSeq = s.respSeq + 1 := rfl
@[simp] theorem completeTransfer_contentLen (s : State) : (completeTransfer s).contentLen = s.contentLen := rfl
@[simp] theorem completeTransfer_periphStarted (s : State) : (completeTransfer s).periphStarted = s.periphStarted := rfl
@[simp] theorem completeTransfer_held (s : State) : (completeTransfer s).held = s.held := rfl
@[simp] theorem completeTransfer_now (s : State) : (completeTransfer s).now = s.now := rfl
@[simp] theorem completeTransfer_inflight (s : State) : (completeTransfer s).inflight = none := rfl
@[simp] theorem completeTransfer_stream (s : State) : (completeTransfer s).stream = s.stream := rfl
@[simp] theorem completeTransfer_pos (s : State) : (completeTransfer s).pos = s.pos := rfl
@[simp] theorem completeTransfer_txlog (s : State) : (completeTransfer s).txlog = setLastOutcome s.txlog .done := rfl
@[simp] theorem completeTransfer_fault (s : State) : (completeTransfer s).fault = s.fault := rfl
@[simp] theorem completeTransfer_schedule (s : State) : (completeTransfer s).schedule = s.schedule := rfl
@[simp] theorem completeTransfer_offer (s : State) : (completeTransfer s).offer = s.offer := rfl
@[simp] theorem completeTransfer_readData (s : State) : (completeTransfer s).readData = s.readData := rfl

/-! ### failTransfer -/

@[simp] theorem failTransfer_cfg (s : State) : (failTransfer s).cfg = s.cfg := rfl
@[simp] theorem failTransfer_st (s : State) : (failTransfer s).st = .idle := rfl
@[simp] theorem failTransfer_pt (s : State) : (failTransfer s).pt = s.pt := rfl
@[simp] theorem failTransfer_buf (s : State) : (failTransfer s).buf = s.buf := rfl
@[simp] theorem failTransfer_req (s : State) : (failTransfer s).req = s.req := rfl
@[simp] theorem failTransfer_xferLen (s : State) : (failTransfer s).xferLen = s.xferLen := rfl
@[simp] theorem failTransfer_deadline (s : State) : (failTransfer s).deadline = s.deadline := rfl
@[simp] theorem failTransfer_err (s : State) : (failTransfer s).err = .transfer := rfl
@[simp] theorem failTransfer_result (s : State) : (failTransfer s).result = 0 := rfl
@[simp] theorem failTransfer_respSeq (s : State) : (failTransfer s).respSeq = s.respSeq + 1 := rfl
@[simp] theorem failTransfer_contentLen (s : State) : (failTransfer s).contentLen = s.contentLen := rfl
@[simp] theorem failTransfer_periphStarted (s : State) : (failTransfer s).periphStarted = s.periphStarted := rfl
@[simp] theorem failTransfer_held (s : State) : (failTransfer s).held = s.held := rfl
@[simp] theorem failTransfer_now (s : State) : (failTransfer s).now = s.now := rfl
@[simp] theorem failTransfer_inflight (s : State) : (failTransfer s).inflight = none := rfl
@[simp] theorem failTransfer_stream (s : State) : (failTransfer s).stream = s.stream := rfl
@[simp] theorem failTransfer_pos (s : State) : (failTransfer s).pos = s.pos := rfl
@[simp] theorem failTransfer_txlog (s : State) : (failTransfer s).txlog = setLastOutcome s.txlog .failed := rfl
@[simp] theorem failTransfer_fault (s : State) : (failTransfer s).fault = s.fault := rfl
@[simp] theorem failTransfer_schedule (s : State) : (failTransfer s).schedule = s.schedule := rfl
@[simp] theorem failTransfer_offer (s : State) : (failTransfer s).offer = s.offer := rfl
@[simp] theorem failTransfer_readData (s : State) : (failTransfer s).readData = s.readData := rfl

/-! ### leaveCooldown -/

@[simp] theorem leaveCooldown_cfg (s : State) : (leaveCooldown s).cfg = s.cfg := rfl
@[simp] theorem leaveCooldown_st (s : State) : (leaveCooldown s).st = .idle := rfl
@[simp] theorem leaveCooldown_pt (s : State) : (leaveCooldown s).pt = s.pt := rfl
@[simp] theorem leaveCooldown_buf (s : State) : (leaveCooldown s).buf = s.buf := rfl
@[simp] theorem leaveCooldown_req (s : State) : (leaveCooldown s).req = s.req := rfl
@[simp] theorem leaveCooldown_xferLen (s : State) : (leaveCooldown s).xferLen = s.xferLen := rfl
@[simp] theorem leaveCooldown_deadline (s : State) : (leaveCooldown s).deadline = s.deadline := rfl
@[simp] theorem leaveCooldown_err (s : State) : (leaveCooldown s).err = s.err := rfl
@[simp] theorem leaveCooldown_result (s : State) : (leaveCooldown s).result = s.result := rfl
@[simp] theorem leaveCooldown_respSeq (s : State) : (leaveCooldown s).respSeq = s.respSeq := rfl
@[simp] theorem leaveCooldown_contentLen (s : State) : (leaveCooldown s).contentLen = s.contentLen := rfl
@[simp] theorem leaveCooldown_periphStarted (s : State) : (leaveCooldown s).periphStarted = s.periphStarted := rfl
@[simp] theorem leaveCooldown_held (s : State) : (leaveCooldown s).held = s.held := rfl
@[simp] theorem leaveCooldown_now (s : State) : (leaveCooldown s).now = s.now := rfl
@[simp] theorem leaveCooldown_inflight (s : State) : (leaveCooldown s).inflight = s.inflight := rfl
@[simp] theorem leaveCooldown_stream (s : State) : (leaveCooldown s).stream = s.stream := rfl
@[simp] theorem leaveCooldown_pos (s : State) : (leaveCooldown s).pos = s.pos := rfl
@[simp] theorem leaveCooldown_txlog (s : State) : (leaveCooldown s).txlog = s.txlog := rfl
@[simp] theorem leaveCooldown_fault (s : State) : (leaveCooldown s).fault = s.fault := rfl
@[simp] theorem leaveCooldown_schedule (s : State) : (leaveCooldown s).schedule = s.schedule := rfl
@[simp] theorem leaveCooldown_offer (s : State) : (leaveCooldown s).offer = s.offer := rfl
@[simp] theorem leaveCooldown_readData (s : State) : (leaveCooldown s).readData = s.readData := rfl

/-! ### advanceClock -/

@[simp] theorem advanceClock_cfg (s : State) (k : Nat) : (advanceClock s k).cfg = s.cfg := rfl
@[simp] theorem advanceClock_st (s : State) (k : Nat) : (advanceClock s k).st = s.st := rfl
@[simp] theorem advanceClock_pt (s : State) (k : Nat) : (advanceClock s k).pt = s.pt := rfl
@[simp] theorem advanceClock_buf (s : State) (k : Nat) : (advanceClock s k).buf = s.buf := rfl
@[simp] theorem advanceClock_req (s : State) (k : Nat) : (advanceClock s k).req = s.req := rfl
@[simp] theorem advanceClock_xferLen (s : State) (k : Nat) : (advanceClock s k).xferLen = s.xferLen := rfl
@[simp] theorem advanceClock_deadline (s : State) (k : Nat) : (advanceClock s k).deadline = s.deadline := rfl
@[simp] theorem advanceClock_err (s : State) (k : Nat) : (advanceClock s k).err = s.err := rfl
@[simp] theorem advanceClock_result (s : State) (k : Nat) : (advanceClock s k).result = s.result := rfl
@[simp] theorem advanceClock_respSeq (s : State) (k : Nat) : (advanceClock s k).respSeq = s.respSeq := rfl
@[simp] theorem advanceClock_contentLen (s : State) (k : Nat) : (advanceClock s k).contentLen = s.contentLen := rfl
@[simp] theorem advanceClock_periphStarted (s : State) (k : Nat) : (advanceClock s k).periphStarted = s.periphStarted := rfl
@[simp] theorem advanceClock_held (s : State) (k : Nat) : (advanceClock s k).held = s.held := rfl
@[simp] theorem advanceClock_now (s : State) (k : Nat) : (advanceClock s k).now = s.now + k := rfl
@[simp] theorem advanceClock_inflight (s : State) (k : Nat) : (advanceClock s k).inflight = s.inflight := rfl
@[simp] theorem advanceClock_stream (s : State) (k : Nat) : (advanceClock s k).stream = s.stream := rfl
@[simp] theorem advanceClock_pos (s : State) (k : Nat) : (advanceClock s k).pos = s.pos := rfl
@[simp] theorem advanceClock_txlog (s : State) (k : Nat) : (advanceClock s k).txlog = s.txlog := rfl
@[simp] theorem advanceClock_fault (s : State) (k : Nat) : (advanceClock s k).fault = s.fault := rfl
@[simp] theorem advanceClock_schedule (s : State) (k : Nat) : (advanceClock s k).schedule = s.schedule := rfl
@[simp] theorem advanceClock_offer (s : State) (k : Nat) : (advanceClock s k).offer = s.offer := rfl
@[simp] theorem advanceClock_readData (s : State) (k : Nat) : (advanceClock s k).readData = s.readData := rfl

/-! ### resetBlock -/

@[simp] theorem resetBlock_cfg (s : State) : (resetBlock s).cfg = s.cfg := rfl
@[simp] theorem resetBlock_st (s : State) : (resetBlock s).st = .unconfigured := rfl
@[simp] theorem resetBlock_pt (s : State) : (resetBlock s).pt = none := rfl
@[simp] theorem resetBlock_buf (s : State) : (resetBlock s).buf = [] := rfl
@[simp] theorem resetBlock_req (s : State) : (resetBlock s).req = none := rfl
@[simp] theorem resetBlock_xferLen (s : State) : (resetBlock s).xferLen = 0 := rfl
@[simp] theorem resetBlock_deadline (s : State) : (resetBlock s).deadline = 0 := rfl
@[simp] theorem resetBlock_err (s : State) : (resetBlock s).err = .ok := rfl
@[simp] theorem resetBlock_result (s : State) : (resetBlock s).result = 0 := rfl
@[simp] theorem resetBlock_respSeq (s : State) : (resetBlock s).respSeq = 0 := rfl
@[simp] theorem resetBlock_contentLen (s : State) : (resetBlock s).contentLen = 0 := rfl
@[simp] theorem resetBlock_periphStarted (s : State) : (resetBlock s).periphStarted = false := rfl
@[simp] theorem resetBlock_held (s : State) : (resetBlock s).held = [] := rfl
@[simp] theorem resetBlock_now (s : State) : (resetBlock s).now = s.now := rfl
@[simp] theorem resetBlock_inflight (s : State) : (resetBlock s).inflight = s.inflight := rfl
@[simp] theorem resetBlock_stream (s : State) : (resetBlock s).stream = s.stream := rfl
@[simp] theorem resetBlock_pos (s : State) : (resetBlock s).pos = s.pos := rfl
@[simp] theorem resetBlock_txlog (s : State) : (resetBlock s).txlog = s.txlog := rfl
@[simp] theorem resetBlock_fault (s : State) : (resetBlock s).fault = s.fault := rfl
@[simp] theorem resetBlock_schedule (s : State) : (resetBlock s).schedule = s.schedule := rfl
@[simp] theorem resetBlock_offer (s : State) : (resetBlock s).offer = s.offer := rfl
@[simp] theorem resetBlock_readData (s : State) : (resetBlock s).readData = s.readData := rfl

end Sys2Proof.Machine
end

