-- ==== Sys2Proof/Laws/Commands.lean ====
section
/-! SUPPORT. Everything a command can do, said once: the gates of R140, R141 and R144, and the inversion of `exec`. -/

namespace Sys2Proof.Machine

/-! ### The gates -/

theorem whenReady_ready {s : State} {d : Decoded} (h : ready s.st d = true) (rule : State → Answer) :
    whenReady s d rule = rule s := if_pos h

theorem whenReady_held {s : State} {d : Decoded} (h : ready s.st d = false) (rule : State → Answer) :
    whenReady s d rule = .next s := if_neg (by simp [h])

theorem whenUsable_unusable {s : State} (h : s.st = .unconfigured ∨ s.st = .cfgError) (rule : State → Answer) :
    whenUsable s rule = .next (raiseError s .unusable) := if_pos h

theorem whenUsable_usable {s : State} (h : s.st.usable = true) (rule : State → Answer) : whenUsable s rule = rule s := by
  refine if_neg ?_
  rintro (h' | h') <;> simp [h', SeqState.usable] at h

theorem whenFits_fits {s : State} {n : BitVec 20} (h : n.toNat ≤ s.cfg.maxLeds) (rule : State → Answer) :
    whenFits s n rule = rule s := if_neg (by simpa [ledCount] using h)

theorem whenFits_overrun {s : State} {n : BitVec 20} (h : s.cfg.maxLeds < n.toNat) (rule : State → Answer) :
    whenFits s n rule = .next (raiseError s .overrun) := if_pos (by simpa [ledCount] using h)

/-- The only state in which a SHOW or CLEAR that is taken and usable is taken (R142, R143). -/
theorem idle_of_frame_accepted {st : SeqState} {d : Decoded} (hd : isFrameCommand d = true)
    (hr : ready st d = true) (hu : ¬(st = .unconfigured ∨ st = .cfgError)) : st = .idle := by
  cases st <;> simp_all [ready]

/-- While the block is busy it is ready for nothing (R140). -/
theorem not_ready_busy {st : SeqState} (h : st = .encoding ∨ st = .transmitting) (d : Decoded) :
    ready st d = false := by
  rcases h with rfl | rfl <;> rfl

/-! ### What an accepted command does -/

/-- The effect of an accepted command `i`, by cases. -/
inductive CommandEffect : Instr → State → State → Prop where
  /-- a rejection: nothing but the response (R141, R144, R107) -/
  | rejected {i : Instr} {s : State} (e : ErrCode) (he : e ≠ .ok) : CommandEffect i s (raiseError s e)
  /-- INIT finds a configuration error (R107) -/
  | configError {s : State} (e : ErrCode) (he : e = .cfgPattern ∨ e = .cfgCapacity) (hst : s.st = .unconfigured) :
    CommandEffect .init s (raiseError (enterCfgError s) e)
  /-- INIT succeeds (R107) -/
  | configured {s : State} (pt : PatternTable) (hpt : initPatterns s.cfg = some pt)
      (hcap : required s.cfg ≤ s.cfg.bufBytes) (hst : s.st = .unconfigured) :
    CommandEffect .init s (respond (configureBlock s pt) .ok 0)
  /-- SHOW is taken (R142) -/
  | showTaken {s : State} (n : BitVec 20) (x : BitVec 8) (hst : s.st = .idle) (hn : n.toNat ≤ s.cfg.maxLeds) :
    CommandEffect (.showFrame n x) s (latchShow s n x)
  /-- CLEAR is taken (R143) -/
  | clearTaken {s : State} (n : BitVec 20) (hst : s.st = .idle) (hn : n.toNat ≤ s.cfg.maxLeds) :
    CommandEffect (.clear n) s (latchClear s n)
  /-- MAXRATE reports (R153) -/
  | rateReported {s : State} (hu : s.st = .idle ∨ s.st = .cooldown) :
    CommandEffect .maxRate s (respond s .ok s.cfg.maxRefreshRate)

theorem execInit_cases (s : State) :
    ready s.st (.ok .init) = false ∧ execInit s = .next s ∨
    ready s.st (.ok .init) = true ∧ ∃ t, execInit s = .next t ∧ CommandEffect .init s t := by
  cases hr : ready s.st (.ok .init) with
  | false => exact .inl ⟨rfl, whenReady_held hr _⟩
  | true =>
    refine .inr ⟨rfl, ?_⟩
    rw [execInit, whenReady_ready hr]
    by_cases hst : s.st = .unconfigured
    · rw [if_neg (by simp [hst])]
      cases hp : initPatterns s.cfg with
      | none => exact ⟨_, rfl, .configError _ (.inl rfl) hst⟩
      | some pt =>
        refine ⟨_, rfl, ?_⟩
        unfold initWithPatterns
        split
        · exact .configError _ (.inr rfl) hst
        · exact .configured pt hp (by omega) hst
    · rw [if_pos hst]
      exact ⟨_, rfl, .rejected _ (by decide)⟩

theorem execShow_cases (n : BitVec 20) (x : BitVec 8) (s : State) :
    ready s.st (.ok (.showFrame n x)) = false ∧ execShow n x s = .next s ∨
    ready s.st (.ok (.showFrame n x)) = true ∧ ∃ t, execShow n x s = .next t ∧ CommandEffect (.showFrame n x) s t := by
  cases hr : ready s.st (.ok (.showFrame n x)) with
  | false => exact .inl ⟨rfl, whenReady_held hr _⟩
  | true =>
    refine .inr ⟨rfl, ?_⟩
    rw [execShow, whenReady_ready hr]
    by_cases hu : s.st = .unconfigured ∨ s.st = .cfgError
    · exact ⟨_, whenUsable_unusable hu _, .rejected _ (by decide)⟩
    · have hidle := idle_of_frame_accepted rfl hr hu
      rw [whenUsable_usable (by simp [hidle, SeqState.usable])]
      by_cases hn : s.cfg.maxLeds < n.toNat
      · exact ⟨_, whenFits_overrun hn _, .rejected _ (by decide)⟩
      · exact ⟨_, whenFits_fits (by omega) _, .showTaken n x hidle (by omega)⟩

theorem execClear_cases (n : BitVec 20) (s : State) :
    ready s.st (.ok (.clear n)) = false ∧ execClear n s = .next s ∨
    ready s.st (.ok (.clear n)) = true ∧ ∃ t, execClear n s = .next t ∧ CommandEffect (.clear n) s t := by
  cases hr : ready s.st (.ok (.clear n)) with
  | false => exact .inl ⟨rfl, whenReady_held hr _⟩
  | true =>
    refine .inr ⟨rfl, ?_⟩
    rw [execClear, whenReady_ready hr]
    by_cases hu : s.st = .unconfigured ∨ s.st = .cfgError
    · exact ⟨_, whenUsable_unusable hu _, .rejected _ (by decide)⟩
    · have hidle := idle_of_frame_accepted rfl hr hu
      rw [whenUsable_usable (by simp [hidle, SeqState.usable])]
      by_cases hn : s.cfg.maxLeds < n.toNat
      · exact ⟨_, whenFits_overrun hn _, .rejected _ (by decide)⟩
      · exact ⟨_, whenFits_fits (by omega) _, .clearTaken n hidle (by omega)⟩

theorem execMaxRate_cases (s : State) :
    ready s.st (.ok .maxRate) = false ∧ execMaxRate s = .next s ∨
    ready s.st (.ok .maxRate) = true ∧ ∃ t, execMaxRate s = .next t ∧ CommandEffect .maxRate s t := by
  cases hr : ready s.st (.ok .maxRate) with
  | false => exact .inl ⟨rfl, whenReady_held hr _⟩
  | true =>
    refine .inr ⟨rfl, ?_⟩
    rw [execMaxRate, whenReady_ready hr]
    by_cases hu : s.st = .unconfigured ∨ s.st = .cfgError
    · exact ⟨_, whenUsable_unusable hu _, .rejected _ (by decide)⟩
    · have hic : s.st = .idle ∨ s.st = .cooldown := by
        cases h : s.st <;> simp_all [ready]
      rw [whenUsable_usable (by rcases hic with h | h <;> simp [h, SeqState.usable])]
      exact ⟨_, rfl, .rateReported hic⟩

/-- Everything a command can do: it is held and nothing changes, or it is accepted and has one of the effects above. -/
theorem exec_cases (i : Instr) (s : State) :
    ready s.st (.ok i) = false ∧ exec i s = .next s ∨
    ready s.st (.ok i) = true ∧ ∃ t, exec i s = .next t ∧ CommandEffect i s t := by
  cases i with
  | init => exact execInit_cases s
  | showFrame n x => exact execShow_cases n x s
  | clear n => exact execClear_cases n s
  | maxRate => exact execMaxRate_cases s

end Sys2Proof.Machine
end

