-- ==== Sys2Proof/Laws/Decode.lean ====
section
/-! SUPPORT. The fields of format C (R70): each field of an assembled word is what was put there, and a word is assembled
from its fields. -/

namespace Sys2Proof

@[simp] theorem opField_formatC (n : BitVec 20) (x : BitVec 8) (o : BitVec 4) : opField (formatC n x o) = o := by
  ext i hi
  simp only [opField, formatC, BitVec.getElem_extractLsb', BitVec.getLsbD_append]
  simp [hi]

@[simp] theorem scaleField_formatC (n : BitVec 20) (x : BitVec 8) (o : BitVec 4) : scaleField (formatC n x o) = x := by
  ext i hi
  simp only [scaleField, formatC, BitVec.getElem_extractLsb', BitVec.getLsbD_append]
  simp [hi]

@[simp] theorem nLedsField_formatC (n : BitVec 20) (x : BitVec 8) (o : BitVec 4) : nLedsField (formatC n x o) = n := by
  ext i hi
  simp only [nLedsField, formatC, BitVec.getElem_extractLsb', BitVec.getLsbD_append]
  simp [hi, show ¬ 12 + i < 4 by omega, show ¬ 12 + i - 4 < 8 by omega, show 12 + i - 4 - 8 = i by omega]

theorem formatC_fields (w : Word) : formatC (nLedsField w) (scaleField w) (opField w) = w := by
  refine BitVec.eq_of_getLsbD_eq fun i hi => ?_
  simp only [nLedsField, scaleField, opField, formatC, BitVec.getLsbD_append, BitVec.getLsbD_extractLsb']
  by_cases h : i < 4
  · simp [h]
  · by_cases h2 : i - 4 < 8
    · simp [h, h2, show 4 + (i - 4) = i by omega]
    · simp [h, h2, show 12 + (i - 4 - 8) = i by omega, show i - 4 - 8 < 20 by omega]

/-- The low twelve bits of a word are its SCALE and OP fields. -/
theorem low12_fields (w : Word) : w.extractLsb' 0 12 = scaleField w ++ opField w := by
  refine BitVec.eq_of_getLsbD_eq fun i hi => ?_
  simp only [scaleField, opField, BitVec.getLsbD_append, BitVec.getLsbD_extractLsb']
  by_cases h : i < 4
  · simp [h, hi]
  · simp [h, hi, show 4 + (i - 4) = i by omega, show i - 4 < 8 by omega]

/-- A word with the given fields. -/
theorem eq_formatC_iff (w : Word) (n : BitVec 20) (x : BitVec 8) (o : BitVec 4) :
    w = formatC n x o ↔ nLedsField w = n ∧ scaleField w = x ∧ opField w = o := by
  constructor
  · rintro rfl; simp
  · rintro ⟨rfl, rfl, rfl⟩; exact (formatC_fields w).symm

end Sys2Proof
end

