-- ==== Sys2Proof/Laws/Memory.lean ====
section
/-! SUPPORT. The laws of the buffer: a read after a write, and that every write keeps the canonical form. -/

namespace Sys2Proof.Machine

@[simp] theorem Memory.read_nil (i : Nat) : Memory.read [] i = none := rfl

@[simp] theorem Memory.readRange_zero (m : Memory) (i : Nat) : Memory.readRange m i 0 = .ok [] := rfl

theorem Memory.risesAbove_mono {a b : Nat} (h : a ≤ b) {m : Memory} (hm : Memory.risesAbove b m = true) :
    Memory.risesAbove a m = true := by
  cases m with
  | nil => rfl
  | cons c rest =>
    simp only [Memory.risesAbove, Bool.and_eq_true, decide_eq_true_eq] at hm ⊢
    exact ⟨by omega, hm.2⟩

theorem Memory.wf_of_risesAbove {a : Nat} {m : Memory} (hm : Memory.risesAbove a m = true) :
    Memory.wf m = true := by
  cases m with
  | nil => rfl
  | cons c rest =>
    simp only [Memory.risesAbove, Bool.and_eq_true] at hm
    exact hm.2

theorem Memory.risesAbove_write {low i : Nat} {m : Memory} (v : Byte) (h : low < i)
    (hm : Memory.risesAbove low m = true) : Memory.risesAbove low (Memory.write m i v) = true := by
  induction m generalizing low with
  | nil => simp [Memory.write, Memory.risesAbove, h]
  | cons c rest ih =>
    obtain ⟨a, w⟩ := c
    simp only [Memory.risesAbove, Bool.and_eq_true, decide_eq_true_eq] at hm
    simp only [Memory.write]
    split
    · simp only [Memory.risesAbove, Bool.and_eq_true, decide_eq_true_eq]
      exact ⟨hm.1, ih ‹_› hm.2⟩
    · split
      · subst i
        simp only [Memory.risesAbove, Bool.and_eq_true, decide_eq_true_eq]
        exact hm
      · simp only [Memory.risesAbove, Bool.and_eq_true, decide_eq_true_eq]
        exact ⟨h, by omega, hm.2⟩

/-- Every write keeps the canonical form. -/
theorem Memory.wf_write {m : Memory} (hm : Memory.wf m = true) (i : Nat) (v : Byte) :
    Memory.wf (Memory.write m i v) = true := by
  cases m with
  | nil => rfl
  | cons c rest =>
    obtain ⟨a, w⟩ := c
    simp only [Memory.wf] at hm
    simp only [Memory.write]
    split
    · exact Memory.risesAbove_write v ‹_› hm
    · split
      · subst i; exact hm
      · simp only [Memory.wf, Memory.risesAbove, Bool.and_eq_true, decide_eq_true_eq]
        exact ⟨by omega, hm⟩

theorem Memory.read_risesAbove {a i : Nat} {m : Memory} (hm : Memory.risesAbove a m = true) (h : i ≤ a) :
    Memory.read m i = none := by
  induction m generalizing a with
  | nil => rfl
  | cons c rest ih =>
    obtain ⟨b, w⟩ := c
    simp only [Memory.risesAbove, Bool.and_eq_true, decide_eq_true_eq] at hm
    simp only [Memory.read]
    rw [if_neg (by omega)]
    exact ih hm.2 (by omega)

/-- A read after a write: the written byte at its place, the old value everywhere else. -/
theorem Memory.read_write {m : Memory} (i j : Nat) (v : Byte) :
    Memory.read (Memory.write m i v) j = if j = i then some v else Memory.read m j := by
  induction m with
  | nil => simp only [Memory.write, Memory.read, eq_comm]
  | cons c rest ih =>
    obtain ⟨a, w⟩ := c
    rcases Nat.lt_trichotomy a i with h | h | h
    · rw [Memory.write, if_pos h]
      simp only [Memory.read, ih]
      by_cases ha : a = j
      · rw [if_pos ha, if_neg (by omega), if_pos ha]
      · rw [if_neg ha, if_neg ha]
    · subst h
      rw [Memory.write, if_neg (by omega), if_pos rfl]
      simp only [Memory.read, eq_comm (a := j)]
      by_cases ha : a = j
      · rw [if_pos ha, if_pos ha]
      · rw [if_neg ha, if_neg ha, if_neg ha]
    · rw [Memory.write, if_neg (by omega), if_neg (by omega)]
      simp only [Memory.read, eq_comm (a := j)]

/-- A write brings in no cell but its own. -/
theorem Memory.mem_write {m : Memory} {i : Nat} {v : Byte} {c : Host.Cell} (h : c ∈ Memory.write m i v) :
    c = (i, v) ∨ c ∈ m := by
  induction m with
  | nil => simpa [Memory.write] using h
  | cons d rest ih =>
    obtain ⟨a, w⟩ := d
    simp only [Memory.write] at h
    split at h
    · rcases List.mem_cons.mp h with rfl | h
      · exact .inr (by simp)
      · rcases ih h with h | h
        · exact .inl h
        · exact .inr (by simp [h])
    · split at h
      · rcases List.mem_cons.mp h with h | h
        · exact .inl h
        · exact .inr (by simp [h])
      · rcases List.mem_cons.mp h with h | h
        · exact .inl h
        · exact .inr h

/-- A range whose cells hold the bytes of a list reads as that list. -/
theorem Memory.readRange_eq {m : Memory} {i : Nat} {bytes : List Byte}
    (h : ∀ j v, bytes[j]? = some v → Memory.read m (i + j) = some v) :
    Memory.readRange m i bytes.length = .ok bytes := by
  induction bytes generalizing i with
  | nil => rfl
  | cons b bs ih =>
    have h0 : Memory.read m i = some b := by simpa using h 0 b (by simp)
    have hs : Memory.readRange m (i + 1) bs.length = .ok bs :=
      ih fun j v hj => by
        have := h (j + 1) v (by simpa using hj)
        rwa [show i + 1 + j = i + (j + 1) by omega]
    simp [Memory.readRange, h0, hs]

/-- What a range reads as: as many bytes as asked for, each the value of its cell. -/
theorem Memory.readRange_ok {m : Memory} {i len : Nat} {bytes : List Byte}
    (h : Memory.readRange m i len = .ok bytes) :
    bytes.length = len ∧ ∀ j v, bytes[j]? = some v → Memory.read m (i + j) = some v := by
  induction len generalizing i bytes with
  | zero =>
    simp only [Memory.readRange, Except.ok.injEq] at h
    subst h
    simp
  | succ len ih =>
    simp only [Memory.readRange] at h
    split at h
    · cases h
    · split at h
      · rename_i _ v hv _ vs hvs
        simp only [Except.ok.injEq] at h
        subst h
        obtain ⟨hl, hr⟩ := ih hvs
        refine ⟨by simp [hl], fun j w hj => ?_⟩
        cases j with
        | zero =>
          simp only [List.getElem?_cons_zero, Option.some.injEq] at hj
          rw [Nat.add_zero, hv, hj]
        | succ j =>
          have := hr j w (by simpa using hj)
          rwa [show i + 1 + j = i + (j + 1) by omega] at this
      · cases h

/-- Memories that agree on a range read alike there. -/
theorem Memory.readRange_congr {m m' : Memory} {i len : Nat}
    (h : ∀ j, i ≤ j → j < i + len → Memory.read m j = Memory.read m' j) :
    Memory.readRange m i len = Memory.readRange m' i len := by
  induction len generalizing i with
  | zero => rfl
  | succ len ih =>
    simp only [Memory.readRange]
    rw [h i (by omega) (by omega), ih (fun j h1 h2 => h j (by omega) (by omega))]

end Sys2Proof.Machine
end

