-- ==== Sys2Proof/Laws/Encoder.lean ====
section
/-! SUPPORT. What the encoder does, said once: its loops write the bytes of the frame in order from offset 0, and a stream
that is short ends the pixel loop at the pixel it was short for. -/

namespace Sys2Proof.Machine

/-! ### Writing bytes at the cursor -/

@[simp] theorem putBytes_nil (e : Encoder) : putBytes e [] = e := rfl

theorem putBytes_cons (e : Encoder) (v : Byte) (vs : List Byte) : putBytes e (v :: vs) = putBytes (putByte e v) vs := rfl

theorem putBytes_append (e : Encoder) (a b : List Byte) : putBytes e (a ++ b) = putBytes (putBytes e a) b :=
  List.foldl_append

@[simp] theorem putBytes_cur (e : Encoder) (bytes : List Byte) : (putBytes e bytes).cur = e.cur + bytes.length := by
  induction bytes generalizing e with
  | nil => rfl
  | cons v vs ih => rw [putBytes_cons, ih]; simp [putByte]; omega

@[simp] theorem putBytes_pos (e : Encoder) (bytes : List Byte) : (putBytes e bytes).pos = e.pos := by
  induction bytes generalizing e with
  | nil => rfl
  | cons v vs ih => rw [putBytes_cons, ih]; rfl

theorem putBytes_withPos (e : Encoder) (pos : Nat) (bytes : List Byte) :
    putBytes { e with pos := pos } bytes = { putBytes e bytes with pos := pos } := by
  induction bytes generalizing e with
  | nil => rfl
  | cons v vs ih => rw [putBytes_cons, putBytes_cons, ← ih]; rfl

theorem putBytes_posIrrelevant (buf : Memory) (cur pos pos' : Nat) (bytes : List Byte) :
    putBytes { buf := buf, cur := cur, pos := pos' } bytes =
      { putBytes { buf := buf, cur := cur, pos := pos } bytes with pos := pos' } :=
  putBytes_withPos { buf := buf, cur := cur, pos := pos } pos' bytes

/-- The cells after writing bytes at the cursor: the bytes in order there, the old values elsewhere. -/
theorem putBytes_read (e : Encoder) (bytes : List Byte) (i : Nat) :
    Memory.read (putBytes e bytes).buf i =
      if e.cur ≤ i ∧ i < e.cur + bytes.length then bytes[i - e.cur]? else Memory.read e.buf i := by
  induction bytes generalizing e with
  | nil => rw [if_neg (by simp)]; rfl
  | cons v vs ih =>
    rw [putBytes_cons, ih]
    rw [putByte]
    simp only [List.length_cons, Memory.read_write]
    by_cases h0 : i = e.cur
    · subst h0
      simp
    · by_cases h1 : e.cur + 1 ≤ i ∧ i < e.cur + 1 + vs.length
      · rw [if_pos h1, if_pos (by omega), show i - e.cur = (i - (e.cur + 1)) + 1 by omega]
        simp
      · rw [if_neg h1, if_neg h0, if_neg (by omega)]

theorem putBytes_wf {e : Encoder} (h : Memory.wf e.buf = true) (bytes : List Byte) :
    Memory.wf (putBytes e bytes).buf = true := by
  induction bytes generalizing e with
  | nil => exact h
  | cons v vs ih => exact ih (Memory.wf_write h _ _)

theorem putBytes_mem {e : Encoder} {bytes : List Byte} {c : Host.Cell} (h : c ∈ (putBytes e bytes).buf) :
    c.1 < e.cur + bytes.length ∨ c ∈ e.buf := by
  induction bytes generalizing e with
  | nil => exact .inr h
  | cons v vs ih =>
    rw [putBytes_cons] at h
    rcases ih h with h | h
    · left; simp only [putByte, List.length_cons] at h ⊢; omega
    · rcases Memory.mem_write h with rfl | h
      · left; simp
      · exact .inr h

/-! ### Components and pixels -/

/-- The bytes one component expands to (R122, R123). -/
def componentBytes (pt : PatternTable) (v : Byte) : List Byte := (wireBitsOfByte v).flatMap pt.pick

theorem encodeComponent_eq (pt : PatternTable) (e : Encoder) (v : Byte) :
    encodeComponent pt e v = putBytes e (componentBytes pt v) := by
  simp [encodeComponent, encodeBits, componentBytes, wireBitsOfByte, List.range_succ, putBytes_append]

theorem encodeComponents_eq (pt : PatternTable) (e : Encoder) (comps : List Byte) :
    comps.foldl (encodeComponent pt) e = putBytes e (comps.flatMap (componentBytes pt)) := by
  induction comps generalizing e with
  | nil => rfl
  | cons v vs ih => simp [ih, encodeComponent_eq, putBytes_append]

theorem nextPixel_show_some {stream : List Byte} {pos : Nat} (h : 3 ≤ stream.length - pos) :
    nextPixel .showFrame stream pos = some ((stream.drop pos).take 3, pos + 3) := by
  have hl : 3 ≤ (stream.drop pos).length := by simpa using h
  simp only [nextPixel]
  split
  · rename_i hd; simp [hd]
  · rename_i hd
    rcases hx : stream.drop pos with _ | ⟨a, _ | ⟨b, _ | ⟨c, l⟩⟩⟩
    · simp [hx] at hl
    · simp [hx] at hl
    · simp [hx] at hl
    · exact absurd hx (hd a b c l)

theorem nextPixel_show_none {stream : List Byte} {pos : Nat} (h : stream.length - pos < 3) :
    nextPixel .showFrame stream pos = none := by
  have hl : (stream.drop pos).length < 3 := by simpa using h
  simp only [nextPixel]
  split
  · rename_i hd
    rw [hd] at hl
    simp only [List.length_cons] at hl
    omega
  · rfl

/-- The pixel loop of a SHOW frame whose stream suffices. -/
theorem encodePixels_show (pt : PatternTable) (stream : List Byte) (left p : Nat) (e : Encoder)
    (h : 3 * left ≤ stream.length - e.pos) :
    encodePixels pt .showFrame stream left p e =
      (putBytes { e with pos := e.pos + 3 * left } (((stream.drop e.pos).take (3 * left)).flatMap (componentBytes pt)),
        none) := by
  induction left generalizing p e with
  | zero => simp [encodePixels]
  | succ left ih =>
    have htake : (stream.drop e.pos).take (3 * (left + 1)) =
        (stream.drop e.pos).take 3 ++ (stream.drop (e.pos + 3)).take (3 * left) := by
      rw [show 3 * (left + 1) = 3 + 3 * left by omega, List.take_add, List.drop_drop]
    rw [encodePixels, nextPixel_show_some (by omega)]
    simp only [encodeComponents_eq]
    rw [ih _ _ (by simp only [putBytes_pos]; omega)]
    simp only [putBytes_withPos, htake, List.flatMap_append, putBytes_append]
    rw [show e.pos + 3 + 3 * left = e.pos + 3 * (left + 1) by omega]

/-- The pixel loop of a CLEAR frame. -/
theorem encodePixels_clear (pt : PatternTable) (stream : List Byte) (left p : Nat) (e : Encoder) :
    encodePixels pt .clear stream left p e =
      (putBytes e ((List.replicate (3 * left) 0x00).flatMap (componentBytes pt)), none) := by
  induction left generalizing p e with
  | zero => simp [encodePixels]
  | succ left ih =>
    have hrep : List.replicate (3 * (left + 1)) (0x00 : Byte) = [0, 0, 0] ++ List.replicate (3 * left) 0 := by
      rw [show 3 * (left + 1) = 3 * left + 1 + 1 + 1 by omega]; simp [List.replicate_succ]
    rw [encodePixels]
    simp only [nextPixel, encodeComponents_eq, ih, hrep, List.flatMap_append, putBytes_append]

/-- The pixel loop of a SHOW frame whose stream is short: it ends at the first pixel without three components, having
written the pixels before it. -/
theorem encodePixels_short (pt : PatternTable) (stream : List Byte) (left p : Nat) (e : Encoder)
    (h : stream.length - e.pos < 3 * left) :
    ∃ pos bytes, encodePixels pt .showFrame stream left p e =
      ({ putBytes e bytes with pos := pos }, some (p + (stream.length - e.pos) / 3)) ∧
      bytes = ((stream.drop e.pos).take (3 * ((stream.length - e.pos) / 3))).flatMap (componentBytes pt) := by
  induction left generalizing p e with
  | zero => omega
  | succ left ih =>
    by_cases h3 : stream.length - e.pos < 3
    · refine ⟨e.pos, [], ?_, ?_⟩
      · rw [encodePixels, nextPixel_show_none h3, Nat.div_eq_of_lt h3]; rfl
      · rw [Nat.div_eq_of_lt h3]; simp
    · rw [encodePixels, nextPixel_show_some (by omega)]
      simp only [encodeComponents_eq]
      obtain ⟨pos, bytes, hrun, hbytes⟩ := ih (p + 1)
        (putBytes { e with pos := e.pos + 3 } (((stream.drop e.pos).take 3).flatMap (componentBytes pt)))
        (by simp only [putBytes_pos]; omega)
      simp only [putBytes_pos] at hrun hbytes
      have hdiv : (stream.length - e.pos) / 3 = (stream.length - (e.pos + 3)) / 3 + 1 := by omega
      refine ⟨pos, ((stream.drop e.pos).take 3).flatMap (componentBytes pt) ++ bytes, ?_, ?_⟩
      · rw [hrun, hdiv]
        simp only [putBytes_withPos, putBytes_append]
        rw [Nat.add_right_comm p, Nat.add_assoc]
      · rw [hbytes, hdiv, show ∀ q, 3 * (q + 1) = 3 + 3 * q by intro q; omega, List.take_add, List.flatMap_append,
          List.drop_drop]

/-! ### The frame -/

theorem frameBytes_eq (c : Config) (pt : PatternTable) (comps : List Byte) :
    frameBytes c pt comps = c.lead ++ comps.flatMap (componentBytes pt) ++ c.trail := rfl

theorem componentBytes_length {c : Config} {pt : PatternTable} (h : patternsSound c pt) (v : Byte) :
    (componentBytes pt v).length = 8 * c.n := by
  have hp : ∀ b, (pt.pick b).length = c.n := by
    intro b; cases b
    · exact h.2.1
    · exact h.1
  simp [componentBytes, wireBitsOfByte, List.range_succ, hp]
  omega

theorem componentsBytes_length {c : Config} {pt : PatternTable} (h : patternsSound c pt) (comps : List Byte) :
    (comps.flatMap (componentBytes pt)).length = comps.length * (8 * c.n) := by
  induction comps with
  | nil => simp
  | cons v vs ih => simp [ih, componentBytes_length h, Nat.succ_mul]; omega

theorem frameBytes_length {c : Config} {pt : PatternTable} (h : patternsSound c pt) (comps : List Byte) :
    (frameBytes c pt comps).length = c.lead.length + comps.length * (8 * c.n) + c.trail.length := by
  simp [frameBytes_eq, componentsBytes_length h, Nat.add_assoc]

/-- The writes of a frame whose components are all there: its bytes in order from offset 0. -/
theorem encodeFrame_eq (s : State) (pt : PatternTable) (r : Request) (h : streamSuffices s r) :
    encodeFrame s.cfg pt r s.stream s.pos s.buf =
      (putBytes
        { buf := s.buf, cur := 0, pos := posAfterFrame s r }
        (frameBytes s.cfg pt (componentsOf s r)), none) := by
  obtain ⟨kind, n, scale⟩ := r
  cases kind with
  | clear =>
    simp only [encodeFrame, encodePixels_clear, componentsOf, posAfterFrame, frameBytes_eq, putBytes_append]
  | showFrame =>
    have h' : 3 * Request.pixels ⟨.showFrame, n, scale⟩ ≤ s.stream.length - s.pos := h rfl
    simp only [encodeFrame]
    rw [encodePixels_show _ _ _ _ _ (by simpa using h')]
    simp only [componentsOf, posAfterFrame, frameBytes_eq, putBytes_append]
    rw [putBytes_posIrrelevant s.buf 0 s.pos (s.pos + _) s.cfg.lead]
    simp only [putBytes_withPos, putBytes_pos]

/-- A frame has three components a pixel. -/
theorem componentsOf_length {s : State} {r : Request} (h : streamSuffices s r) :
    (componentsOf s r).length = 3 * r.pixels := by
  unfold componentsOf
  split
  · rename_i hk
    have := h hk
    simp; omega
  · simp

theorem frameBytes_length_xlen {s : State} {pt : PatternTable} {r : Request} (hp : patternsSound s.cfg pt)
    (h : streamSuffices s r) : (frameBytes s.cfg pt (componentsOf s r)).length = xlen s.cfg r.pixels := by
  rw [frameBytes_length hp, componentsOf_length h, xlen, content]
  have : 3 * r.pixels * (8 * s.cfg.n) = r.pixels * 3 * 8 * s.cfg.n := by ring
  omega

end Sys2Proof.Machine
end

