-- ==== Sys2Proof/Laws/PerInstr.lean ====
section
/-! SUPPORT. One lemma per command: the fields of its word are those of R73's row (family EncodedFields). -/

namespace Sys2Proof.Laws.EncodedFields

/-- The fields R73 gives a command's word: opcode, SCALE, NLEDS. -/
def fields : Instr → BitVec 4 × BitVec 8 × BitVec 20
  | .init => (0x1, 0, 0)
  | .showFrame nLeds scale => (0x2, scale, nLeds)
  | .clear nLeds => (0x3, 0, nLeds)
  | .maxRate => (0x4, 0, 0)

/-- The fields of the encoded word are the command's. -/
def Statement (i : Instr) : Prop :=
  (opField (encode i), scaleField (encode i), nLedsField (encode i)) = fields i

theorem init : Statement .init := by simp [Statement, encode, fields]

theorem showFrame (nLeds : BitVec 20) (scale : BitVec 8) : Statement (.showFrame nLeds scale) := by
  simp [Statement, encode, fields]

theorem clear (nLeds : BitVec 20) : Statement (.clear nLeds) := by simp [Statement, encode, fields]

theorem maxRate : Statement .maxRate := by simp [Statement, encode, fields]

end Sys2Proof.Laws.EncodedFields
end

