-- ==== Sys2Proof/Laws/Step.lean ====
section
/-! SUPPORT. Everything a step can do, said once: the inversion of each event's rule and of the step. -/

namespace Sys2Proof.Machine

/-! ### Accepting a command -/

@[simp] theorem releaseHeld_st (s : State) (k : Nat) (d : Decoded) : (releaseHeld s k d).st = s.st := by
  unfold releaseHeld; split <;> rfl

theorem releaseHeld_ready {s : State} {d : Decoded} (h : ready s.st d = true) (k : Nat) :
    releaseHeld s k d = { s with held := s.held.eraseIdx k } := if_pos h

theorem releaseHeld_held {s : State} {d : Decoded} (h : ready s.st d = false) (k : Nat) :
    releaseHeld s k d = s := if_neg (by simp [h])

/-- Everything the acceptance of the k-th held word can do. -/
inductive AcceptEffect (k : Nat) (s : State) : State → Prop where
  /-- no such word, or the block is not ready for it: nothing changes (R140) -/
  | held : AcceptEffect k s s
  /-- an ILLEGAL word is accepted (R74) -/
  | illegal (w : Word) (hw : s.held[k]? = some w) (r : Reject) (hd : decode w = .error r)
      (hr : ready s.st (.error r) = true) :
    AcceptEffect k s (raiseError { s with held := s.held.eraseIdx k } .illegal)
  /-- a command is accepted (R140) -/
  | command (w : Word) (hw : s.held[k]? = some w) (i : Instr) (hd : decode w = .ok i) (hr : ready s.st (.ok i) = true)
      (t : State) (ht : CommandEffect i { s with held := s.held.eraseIdx k } t) : AcceptEffect k s t

theorem acceptCommand_cases (s : State) (k : Nat) : ∃ t, acceptCommand s k = .next t ∧ AcceptEffect k s t := by
  unfold acceptCommand
  split
  · exact ⟨s, rfl, .held⟩
  · rename_i w hw
    cases hd : decode w with
    | error r =>
      cases hr : ready s.st (.error r) with
      | false =>
        rw [releaseHeld_held hr]
        exact ⟨s, by rw [performCommand, illegalCommand, whenReady_held hr], .held⟩
      | true =>
        rw [releaseHeld_ready hr]
        exact ⟨_, by rw [performCommand, illegalCommand, whenReady_ready (by exact hr)], .illegal w hw r hd hr⟩
    | ok i =>
      cases hr : ready s.st (.ok i) with
      | false =>
        rw [releaseHeld_held hr]
        rcases exec_cases i s with ⟨_, h⟩ | ⟨h, _⟩
        · exact ⟨s, h, .held⟩
        · rw [hr] at h; cases h
      | true =>
        rw [releaseHeld_ready hr]
        rcases exec_cases i { s with held := s.held.eraseIdx k } with ⟨h, _⟩ | ⟨_, t, ht, he⟩
        · rw [show ({ s with held := s.held.eraseIdx k } : State).st = s.st from rfl, hr] at h; cases h
        · exact ⟨t, ht, .command w hw i hd hr t he⟩

/-! ### The ENCODING step -/

/-- Everything `Send` can do when it completes. -/
theorem send_cases {s t : State} {len : Nat} (h : send s len = .next t) :
    ∃ bytes, Memory.readRange s.buf 0 len = .ok bytes ∧
      t = { s with
        inflight := some bytes
        txlog := s.txlog ++ [{ bytes := bytes, outcome := .pending }]
        st := .transmitting } := by
  unfold send at h
  split at h
  · rename_i bytes hb
    exact ⟨bytes, hb, by injection h with h; exact h.symm⟩
  · cases h

/-- Everything the ENCODING step can do when it completes: the writes and the stream position, then the fault mark, or
the lengths and the end of the frame. -/
inductive EncodeEffect (s : State) : State → Prop where
  | underrun (buf : Memory) (pos p : Nat) :
    EncodeEffect s { s with buf := buf, pos := pos, fault := some (.streamUnderrun p) }
  | empty (buf : Memory) (pos : Nat) (len : BitVec 32) :
    EncodeEffect s (finishEmptyFrame { s with buf := buf, pos := pos, contentLen := len, xferLen := 0 })
  | sent (buf : Memory) (pos : Nat) (len xlen : BitVec 32) (bytes : List Byte) (hx : xlen ≠ 0)
      (hb : Memory.readRange buf 0 xlen.toNat = .ok bytes) :
    EncodeEffect s
      { s with
        buf := buf
        pos := pos
        contentLen := len
        xferLen := xlen
        inflight := some bytes
        txlog := s.txlog ++ [{ bytes := bytes, outcome := .pending }]
        st := .transmitting }

theorem encodeStep_cases {s t : State} (h : encodeStep s = .next t) : EncodeEffect s t := by
  unfold encodeStep at h
  split at h
  · cases h
  · cases h
  · split at h
    · cases h
    · rename_i pt r _ _ _
      generalize encodeFrame s.cfg pt r s.stream s.pos s.buf = out at h
      rcases out with ⟨e, _ | p⟩
      · simp only [writeFrame, endEncoding] at h
        split at h
        · rename_i hx
          injection h with h
          rw [← h, hx]
          exact .empty _ _ _
        · obtain ⟨bytes, hb, rfl⟩ := send_cases h
          exact .sent _ _ _ _ bytes ‹_› hb
      · simp only [writeFrame] at h
        injection h with h
        rw [← h]
        exact .underrun _ _ _

/-- The state once the frame is written and before it is handed over (R120, R127). -/
def frameWritten (s : State) (pt : PatternTable) (r : Request) : State :=
  { s with
    buf := (putBytes { buf := s.buf, cur := 0, pos := s.pos } (frameBytes s.cfg pt (componentsOf s r))).buf
    pos := posAfterFrame s r
    contentLen := BitVec.ofNat 32 (content s.cfg r.pixels)
    xferLen := BitVec.ofNat 32 (xlen s.cfg r.pixels) }

/-- The ENCODING step of a frame whose components are all there and that fits: its writes are the frame's bytes in order
from offset 0, and its lengths those of R127. -/
theorem encodeStep_eq {s : State} {pt : PatternTable} {r : Request} (hpt : s.pt = some pt) (hr : s.req = some r)
    (hp : patternsSound s.cfg pt) (hs : streamSuffices s r) (hx : xlen s.cfg r.pixels ≤ s.cfg.bufBytes) :
    encodeStep s = endEncoding (frameWritten s pt r) := by
  have hlen := frameBytes_length_xlen hp hs
  unfold encodeStep
  rw [hpt, hr]
  simp only [if_neg (show ¬ s.cfg.bufBytes < xlen s.cfg r.pixels by omega), encodeFrame_eq s pt r hs, writeFrame]
  rw [putBytes_posIrrelevant s.buf 0 s.pos]
  simp only [frameWritten, putBytes_cur, hlen, Nat.zero_add, hpt, hr]

/-! ### Events -/

/-- Everything a host access can do when it is not refused. -/
theorem hostEvent_cases {s t : State} {a : Access} (h : hostEvent s a = .next t) :
    t = { s with held := s.held ++ [a.data] } ∨ ∃ v, t = { s with readData := some v } := by
  unfold hostEvent accessRegister at h
  split at h
  · split at h
    · cases h
    · split at h
      · split at h
        · injection h with h; exact .inl h.symm
        · cases h
      · split at h
        · injection h with h; exact .inr ⟨_, h.symm⟩
        · cases h
  · cases h

theorem blockStep_unmarked {s : State} (h : s.fault = none) (rule : Answer) : blockStep s rule = rule := by
  rw [blockStep, h]

theorem blockStep_next {s t : State} {rule : Answer} (h : blockStep s rule = .next t) : s.fault = none ∧ rule = .next t := by
  unfold blockStep at h
  split at h
  · cases h
  · exact ⟨‹_›, h⟩

/-- Everything an event can do when it is neither a fault nor refused. -/
inductive EventEffect (s : State) : Event → State → Prop where
  | written (a : Access) : EventEffect s (.host a) { s with held := s.held ++ [a.data] }
  | read (a : Access) (v : Word) : EventEffect s (.host a) { s with readData := some v }
  | accept (k : Nat) (t : State) (hf : s.fault = none) (h : AcceptEffect k s t) : EventEffect s (.accept k) t
  | cooldownOver (hf : s.fault = none) (hst : s.st = .cooldown) (hd : s.deadline ≤ s.now) :
    EventEffect s .endCooldown (leaveCooldown s)
  | cooldownNotEnabled : EventEffect s .endCooldown s
  | encoded (t : State) (hf : s.fault = none) (hst : s.st = .encoding) (hrun : encodeStep s = .next t)
      (h : EncodeEffect s t) : EventEffect s .encode t
  | encodeNotEnabled (hst : s.st ≠ .encoding) : EventEffect s .encode s
  | offered (stream : List Byte) : EventEffect s (.colorLayer stream) { s with offer := stream }
  | done (hst : s.st = .transmitting) : EventEffect s .transferDone (completeTransfer s)
  | doneIgnored (hst : s.st ≠ .transmitting) : EventEffect s .transferDone s
  | failed (hst : s.st = .transmitting) : EventEffect s .transferFailed (failTransfer s)
  | failedIgnored (hst : s.st ≠ .transmitting) : EventEffect s .transferFailed s
  | clock (ticks : Nat) : EventEffect s (.clock ticks) (advanceClock s ticks)
  | reset : EventEffect s .reset (resetBlock s)

theorem takeEvent_cases {e : Event} {s t : State} (h : takeEvent e s = .next t) : EventEffect s e t := by
  cases e with
  | host a =>
    rcases hostEvent_cases h with rfl | ⟨v, rfl⟩
    · exact .written a
    · exact .read a v
  | accept k =>
    obtain ⟨hf, h⟩ := blockStep_next h
    obtain ⟨t', ht, he⟩ := acceptCommand_cases s k
    rw [ht] at h
    injection h with h
    subst h
    exact .accept k _ hf he
  | endCooldown =>
    obtain ⟨hf, h⟩ := blockStep_next h
    split at h
    · rename_i hc
      injection h with h
      subst h
      exact .cooldownOver hf hc.1 hc.2
    · injection h with h
      subst h
      exact .cooldownNotEnabled
  | encode =>
    obtain ⟨hf, h⟩ := blockStep_next h
    split at h
    · exact .encoded _ hf ‹_› h (encodeStep_cases h)
    · injection h with h
      subst h
      exact .encodeNotEnabled ‹_›
  | colorLayer stream =>
    injection h with h
    subst h
    exact .offered stream
  | transferDone =>
    injection h with h
    subst h
    unfold transferDoneEvent
    split
    · exact .done ‹_›
    · exact .doneIgnored ‹_›
  | transferFailed =>
    injection h with h
    subst h
    unfold transferFailedEvent
    split
    · exact .failed ‹_›
    · exact .failedIgnored ‹_›
  | clock ticks =>
    injection h with h
    subst h
    exact .clock ticks
  | reset =>
    injection h with h
    subst h
    exact .reset

/-! ### The step -/

/-- A step of a well-formed machine whose next event is `e` takes that event. -/
theorem step_event {s : State} {e : Event} {rest : List Event} (hc : s.cfg.wellFormed = true)
    (hs : s.schedule = e :: rest) : step s = takeEvent e { s with schedule := rest } := by
  simp [step, stepMachine, takeNextEvent, hc, hs]

/-- With no event the machine waits. -/
theorem step_wait {s : State} (hc : s.cfg.wellFormed = true) (hs : s.schedule = []) : step s = .next s := by
  simp [step, stepMachine, takeNextEvent, hc, hs]

/-- Everything a step can do: the configuration is well-formed, and the machine waits or takes its next event. -/
theorem step_cases {s t : State} (h : step s = .next t) :
    s.cfg.wellFormed = true ∧
      ((s.schedule = [] ∧ t = s) ∨
        ∃ e rest, s.schedule = e :: rest ∧ EventEffect { s with schedule := rest } e t) := by
  cases hc : s.cfg.wellFormed with
  | false => simp [step, stepMachine, hc] at h
  | true =>
    refine ⟨rfl, ?_⟩
    cases hs : s.schedule with
    | nil =>
      rw [step_wait hc hs] at h
      injection h with h
      exact .inl ⟨rfl, h.symm⟩
    | cons e rest =>
      rw [step_event hc hs] at h
      exact .inr ⟨e, rest, rfl, takeEvent_cases h⟩

/-- A run of one step more: the step answers a next state, and the rest of the run goes on from there. -/
theorem runSteps_succ {k : Nat} {s t : State} (h : runSteps (k + 1) s = .next t) :
    ∃ u, step s = .next u ∧ runSteps k u = .next t := by
  rw [runSteps] at h
  split at h
  · exact ⟨_, ‹_›, h⟩
  · cases h
  · cases h

/-- A run of no step stays where it is. -/
theorem runSteps_zero {s t : State} (h : runSteps 0 s = .next t) : t = s := by
  cases h
  rfl

/-! ### The ENCODING step of a state about to encode -/

/-- The cells of a written frame. -/
theorem frameWritten_read (s : State) (pt : PatternTable) (r : Request) (i : Nat) :
    Memory.read (frameWritten s pt r).buf i =
      if i < (frameBytes s.cfg pt (componentsOf s r)).length then (frameBytes s.cfg pt (componentsOf s r))[i]?
      else Memory.read s.buf i := by
  simp [frameWritten, putBytes_read]

/-- A written frame reads back whole. -/
theorem frameWritten_readRange (s : State) (pt : PatternTable) (r : Request) :
    Memory.readRange (frameWritten s pt r).buf 0 (frameBytes s.cfg pt (componentsOf s r)).length =
      .ok (frameBytes s.cfg pt (componentsOf s r)) := by
  refine Memory.readRange_eq fun j v hj => ?_
  have hlt : j < (frameBytes s.cfg pt (componentsOf s r)).length := (List.getElem?_eq_some_iff.mp hj).1
  rw [Nat.zero_add, frameWritten_read, if_pos hlt, hj]

/-- What the premises of an encode say of the sizes. -/
theorem AboutToEncode.sizes {s : State} {pt : PatternTable} {r : Request} {rest : List Event}
    (h : AboutToEncode s pt r rest) :
    patternsSound s.cfg pt ∧ xlen s.cfg r.pixels ≤ s.cfg.bufBytes ∧ s.cfg.bufBytes < 2 ^ 32 ∧ 1 ≤ s.cfg.n := by
  have husable : s.st.usable = true := by rw [h.encoding]; rfl
  have hfit := h.inv.fits r (by simp [h.request])
  have hcap := h.inv.capacity husable
  have hwf := h.inv.config
  simp only [Config.wellFormed, Bool.and_eq_true, decide_eq_true_eq] at hwf
  refine ⟨h.inv.sound pt (by simp [h.table]), ?_, hwf.2, hwf.1.1⟩
  have : content s.cfg r.pixels ≤ content s.cfg s.cfg.maxLeds := by
    unfold content
    exact Nat.mul_le_mul_right _ (Nat.mul_le_mul_right _ (Nat.mul_le_mul_right _ hfit))
  simp only [required, xlen] at hcap ⊢
  omega

/-- The ENCODING step under its premises: the whole frame is written, and handed over unless it is empty. -/
theorem AboutToEncode.step_eq {s : State} {pt : PatternTable} {r : Request} {rest : List Event}
    (h : AboutToEncode s pt r rest) :
    step s = .next
      (if xlen s.cfg r.pixels = 0 then finishEmptyFrame (frameWritten { s with schedule := rest } pt r)
      else
        { frameWritten { s with schedule := rest } pt r with
          inflight := some (frameBytes s.cfg pt (componentsOf s r))
          txlog := s.txlog ++ [{ bytes := frameBytes s.cfg pt (componentsOf s r), outcome := .pending }]
          st := .transmitting }) := by
  obtain ⟨hp, hx, hb, hn⟩ := h.sizes
  have hlen : (frameBytes s.cfg pt (componentsOf s r)).length = xlen s.cfg r.pixels :=
    frameBytes_length_xlen hp h.stream
  have hstep : step s = endEncoding (frameWritten { s with schedule := rest } pt r) := by
    rw [step_event h.inv.config h.next]
    show encodeEvent { s with schedule := rest } = _
    rw [encodeEvent, blockStep_unmarked (by exact h.noFault), if_pos (by exact h.encoding)]
    exact encodeStep_eq (s := { s with schedule := rest }) h.table h.request hp h.stream hx
  have hx32 : (BitVec.ofNat 32 (xlen s.cfg r.pixels)).toNat = xlen s.cfg r.pixels := by
    rw [BitVec.toNat_ofNat, Nat.mod_eq_of_lt (by omega)]
  have hxlen : (frameWritten { s with schedule := rest } pt r).xferLen = BitVec.ofNat 32 (xlen s.cfg r.pixels) := rfl
  rw [hstep, endEncoding, hxlen]
  by_cases h0 : xlen s.cfg r.pixels = 0
  · rw [if_pos h0, if_pos (by rw [h0]; rfl)]
  · have hne : BitVec.ofNat 32 (xlen s.cfg r.pixels) ≠ 0 := by
      intro hz
      rw [hz] at hx32
      exact h0 hx32.symm
    rw [if_neg h0, if_neg hne, hx32]
    have hread := frameWritten_readRange { s with schedule := rest } pt r
    have hbytes : frameBytes s.cfg pt (componentsOf { s with schedule := rest } r) =
        frameBytes s.cfg pt (componentsOf s r) := rfl
    simp only [hbytes, hlen] at hread
    rw [send, hread]
    rfl

end Sys2Proof.Machine
end

