-- ==== Sys2Proof/Tests/Slice0.lean ====
section
/-! SUPPORT. Tests of the model against the spec's own words, tables and vectors (30_encoding.md, 95_test_vectors.md), and
for each statement with hypotheses a witness that meets them. -/

namespace Sys2Proof.Tests

open Sys2Proof Sys2Proof.Machine

set_option maxRecDepth 20000

/-! ### States the tests start from -/

/-- V1's patterns (R3). -/
def v1Table : PatternTable := { one := [0xFC], zero := [0xC0] }

/-- V1 (PV1 of 95_test_vectors.md section 10) configured and idle, as after INIT and the end of COOLDOWN. -/
def idleState : State :=
  { State.reset with st := .idle, pt := some v1Table, periphStarted := true, respSeq := 1 }

/-- One pixel of SHOW about to be encoded, with the stream of vector W1. -/
def showState : State :=
  { idleState with
    st := .encoding
    req := some { kind := .showFrame, n := 1, scale := 255 }
    stream := [0x00, 0xFF, 0x00]
    schedule := [.encode] }

/-- `MAX_LEDS` pixels of CLEAR about to be encoded (vector E4), the buffer holding an older byte. -/
def clearState : State :=
  { idleState with
    st := .encoding
    buf := [(3, 0x55)]
    req := some { kind := .clear, n := 2, scale := 0 }
    stream := [0x11]
    pos := 1
    schedule := [.encode] }

/-- An empty SHOW frame about to be encoded (vector E8). -/
def emptyFrameState : State :=
  { showState with req := some { kind := .showFrame, n := 0, scale := 0 }, stream := [] }

/-- A SHOW frame whose stream ends in its second pixel (vector E6). -/
def shortStreamState : State :=
  { showState with
    req := some { kind := .showFrame, n := 2, scale := 0 }
    stream := [0x00, 0xFF, 0x00, 0x01] }

/-- The test configuration of program P4: N = 3, derived patterns, no framing. -/
def p4Config : Config :=
  { Config.v1Default with
    n := 3, patMode := .derive, bitPeriod := 52, tHighOne := 800, tHighZero := 400, lead := [], trail := []
    bufBytes := 144 }

/-- P4's patterns (row B3). -/
def p4Table : PatternTable := { one := [0xFF, 0xFE, 0x00], zero := [0xFF, 0x00, 0x00] }

/-- P4's last frame, of no bytes, about to be encoded. -/
def noBytesState : State :=
  { State.resetWith p4Config with
    st := .encoding
    pt := some p4Table
    periphStarted := true
    req := some { kind := .showFrame, n := 0, scale := 0 }
    schedule := [.encode] }

/-- A transfer of two bytes under way. -/
def sendingState : State :=
  { idleState with
    st := .transmitting
    req := some { kind := .clear, n := 0, scale := 0 }
    buf := [(0, 0x00), (1, 0x00)]
    xferLen := 2
    inflight := some [0x00, 0x00]
    txlog := [{ bytes := [0x00, 0x00], outcome := .pending }]
    now := 10 }

/-- The wait after a completion at 10 with `HOLDOFF = 50` (95_test_vectors.md section 7). -/
def coolState (now : Nat) : State := { idleState with st := .cooldown, deadline := 60, now := now }

/-- A marked state (vector E7). -/
def markedState : State := { shortStreamState with fault := some (.streamUnderrun 1) }

/-- The next state of an answer. -/
def nextOf : Answer → Option State
  | .next s => some s
  | .fault _ | .refused _ => none

/-- STATUS and RESULT after an answer. -/
def hostView (a : Answer) : Option (Word × Word) := (nextOf a).map fun s => (statusWord s, s.result)

/-- The bytes the peripheral has after an answer. -/
def sentBytes (a : Answer) : Option (List Byte) := (nextOf a).bind fun s => s.inflight

/-- The fault of an answer. -/
def faultOf : Answer → Option Fault
  | .fault f => some f
  | .next _ | .refused _ => none

/-- The refusal of an answer. -/
def refusalOf : Answer → Option Refusal
  | .refused q => some q
  | .next _ | .fault _ => none

/-! ### Well-formed configurations: one ill-formed record for each check of R10 -/

theorem test_wellFormed_v1 : Config.v1Default.wellFormed = true := by decide
theorem test_wellFormed_p4 : p4Config.wellFormed = true := by decide
theorem test_illFormed_zero_n : Config.wellFormed { p4Config with n := 0 } = false := by decide
theorem test_illFormed_one_length : Config.wellFormed { Config.v1Default with oneConst := [0xFC, 0x00] } = false := by
  decide
theorem test_illFormed_zero_length : Config.wellFormed { Config.v1Default with zeroConst := [] } = false := by decide
theorem test_illFormed_period : Config.wellFormed { p4Config with bitPeriod := 0 } = false := by decide
theorem test_illFormed_buffer : Config.wellFormed { Config.v1Default with bufBytes := 4294967296 } = false := by decide
theorem test_illFormed_refused :
    refusalOf (step { State.reset with cfg := { Config.v1Default with zeroConst := [] } }) = some .illFormedConfig := by
  decide

/-! ### Decoding: words written bit by bit from R70 (NLEDS, SCALE, OP), and the vectors of section 5 -/

theorem test_decode_init : decode 0b00000000000000000000_00000000_0001 = .ok .init := by rfl
theorem test_decode_show : decode 0b00000000000000000011_11111110_0010 = .ok (.showFrame 3 254) := by rfl
theorem test_decode_clear : decode 0b10000000000000000001_00000000_0011 = .ok (.clear 0x80001) := by rfl
theorem test_decode_maxRate : decode 0b00000000000000000000_00000000_0100 = .ok .maxRate := by rfl
theorem test_decode_show_largest : decode 0xFFFFF002 = .ok (.showFrame 1048575 0) := by rfl
theorem test_decode_opcode_zero : decode 0x00000010 = .error (.reservedOpcode 0) := by rfl
theorem test_decode_opcode_fifteen : decode 0x0000000F = .error (.reservedOpcode 15) := by rfl
theorem test_decode_init_scale : decode 0x00000011 = .error (.reservedField 1) := by rfl
theorem test_decode_clear_scale : decode 0x00002013 = .error (.reservedField 3) := by rfl
theorem test_decode_maxRate_nLeds : decode 0x00001004 = .error (.reservedField 4) := by rfl
theorem test_encode_show : encode (.showFrame 1 255) = 0x00001FF2 := by decide
theorem test_encode_clear : encode (.clear 2) = 0x00002003 := by decide
theorem test_table_word : decodeTableWord 32 0x00001FF2 = some (.showFrame 1 255) := by rfl

/-- R77's examples, and a number out of range. -/
theorem test_assemble_show : assemble ['S', 'H', 'O', 'W', ' ', '1', ',', ' ', '2', '5', '5'] = some 0x00001FF2 := by rfl
theorem test_assemble_clear : assemble ['C', 'L', 'E', 'A', 'R', ' ', '0', 'x', '2'] = some 0x00002003 := by rfl
theorem test_assemble_largest :
    assemble ['C', 'L', 'E', 'A', 'R', ' ', '1', '0', '4', '8', '5', '7', '5'] = some 0xFFFFF003 := by rfl
theorem test_assemble_out_of_range :
    assemble ['C', 'L', 'E', 'A', 'R', ' ', '1', '0', '4', '8', '5', '7', '6'] = none := by rfl

/-! ### The pattern table (95_test_vectors.md section 3) -/

/-- The configuration of a row: N, the period, the targets and the tolerance. -/
def rowConfig (n period highOne highZero tol : Nat) : Config :=
  { p4Config with n := n, bitPeriod := period, tHighOne := highOne, tHighZero := highZero, tol := tol }

/-- The derived patterns of a row. -/
def buildRow (n period highOne highZero tol : Nat) : Option PatternTable :=
  build (rowConfig n period highOne highZero tol)

theorem test_build_B1 : buildRow 1 156 900 300 150 = some v1Table := by decide
theorem test_build_B3 : buildRow 3 52 800 400 150 = some p4Table := by decide
theorem test_build_B4 : buildRow 2 80 640 320 150 = some { one := [0xFF, 0x00], zero := [0xF0, 0x00] } := by decide
/-- B5: both targets at a midpoint. -/
theorem test_build_tie : buildRow 1 100 250 150 50 = some { one := [0xC0], zero := [0x80] } := by decide
theorem test_build_tolerance : buildRow 1 100 250 150 0 = none := by decide
theorem test_build_equal_counts : buildRow 1 156 400 400 150 = none := by decide
theorem test_build_swapped : buildRow 1 100 300 700 150 = none := by decide
/-- B11 and B12: clamped, with an error of exactly TOL and one over it. -/
theorem test_build_clamped : buildRow 1 100 850 150 150 = some { one := [0xFE], zero := [0x80] } := by decide
theorem test_build_over_tolerance : buildRow 1 100 850 150 149 = none := by decide
theorem test_build_B16 :
    buildRow 3 52 1300 400 150 = some { one := [0xFF, 0xFF, 0xFE], zero := [0xFF, 0x00, 0x00] } := by decide
theorem test_patOf :
    patOf 3 0 = [0x00, 0x00, 0x00] ∧ patOf 3 1 = [0x80, 0x00, 0x00] ∧ patOf 3 9 = [0xFF, 0x80, 0x00] ∧
      patOf 3 24 = [0xFF, 0xFF, 0xFF] := by decide

/-! ### The commands (sections 4, 5, 7 and program P3) -/

/-- I-10. -/
theorem test_init :
    (nextOf (exec .init
        { State.resetWith (Config.v1 1 26 50 30 400 156 900 300 150 0) with now := 5 })).map
      (fun s => (statusWord s, s.pt, s.periphStarted, s.deadline)) =
    some (0x00000104, some v1Table, true, 35) := by decide
/-- I-7: the pattern check comes first. -/
theorem test_init_errors :
    hostView (exec .init
      (State.resetWith { Config.v1Default with oneConst := [0xC0], zeroConst := [0xFC], bufBytes := 0 })) =
      some (0x0000014D, 0) ∧
    hostView (exec .init (State.resetWith { Config.v1Default with maxLeds := 1, bufBytes := 25 })) =
      some (0x0000015D, 0) := by decide
/-- W4. -/
theorem test_show_overrun : hostView (exec (.showFrame 3 255) idleState) = some (0x00000269, 0) := by decide
theorem test_show_latches :
    (nextOf (exec (.showFrame 2 7) { idleState with offer := [9], stream := [1], pos := 1 })).map
      (fun s => (s.st, s.req, s.stream, s.pos)) =
    some (.encoding, some { kind := .showFrame, n := 2, scale := 7 }, [9], 0) := by decide
theorem test_clear_latches :
    (nextOf (exec (.clear 2) { idleState with stream := [1], pos := 1 })).map (fun s => (s.st, s.req, s.stream, s.pos)) =
    some (.encoding, some { kind := .clear, n := 2, scale := 0 }, [1], 1) := by decide
theorem test_clear_unusable : hostView (exec (.clear 3) { State.reset with st := .cfgError }) = some (0x0000013D, 0) := by
  decide
/-- RESP_SEQ wraps (section 7). -/
theorem test_maxRate_wraps :
    statusWord { idleState with respSeq := 0xFFFF } = 0x00FFFF09 ∧
    hostView (exec .maxRate { idleState with respSeq := 0xFFFF }) = some (0x00000009, 400) := by decide
theorem test_maxRate_in_cooldown : hostView (exec .maxRate (coolState 59)) = some (0x00000204, 400) := by decide
/-- The k-th held word is taken and leaves CMD; an illegal word is answered, a held one stays (sections 5 and 7). -/
theorem test_accept_illegal :
    (nextOf (step { idleState with respSeq := 0, held := [0x1, 0x3FF3], schedule := [.accept 1] })).map
      (fun s => (statusWord s, s.held)) = some (0x00000119, [0x1]) := by decide
theorem test_accept_held :
    (nextOf (step { coolState 59 with held := [0x00002003], schedule := [.accept 0] })).map
      (fun s => (s.st, s.held, s.schedule)) = some (.cooldown, [0x00002003], []) := by decide

/-- The host's question: any row's word is taken as the first command after reset. -/
theorem test_fetch_word :
    hostView (step (State.reset.withFetchWord 32 0x1)) = some (0x00000104, 0) ∧
    hostView (step (State.reset.withFetchWord 32 0x00001FF2)) = some (0x00000138, 0) := by decide

/-! ### The frame encoder (sections 1 and 6) -/

theorem test_encode_W1 :
    sentBytes (step showState) =
      some ([0x00] ++ List.replicate 8 0xC0 ++ List.replicate 8 0xFC ++ List.replicate 8 0xC0 ++ [0x00]) := by decide
/-- E3: MSB first, and components past `3n` are not read. -/
theorem test_encode_E3 :
    sentBytes (step { showState with stream := [0xA5, 0x5A, 0x80, 0x11, 0x22] }) =
      some [0x00, 0xFC, 0xC0, 0xFC, 0xC0, 0xC0, 0xFC, 0xC0, 0xFC, 0xC0, 0xFC, 0xC0, 0xFC, 0xFC, 0xC0, 0xFC, 0xC0, 0xFC,
        0xC0, 0xC0, 0xC0, 0xC0, 0xC0, 0xC0, 0xC0, 0x00] ∧
    (nextOf (step { showState with stream := [0xA5, 0x5A, 0x80, 0x11, 0x22] })).map
      (fun s => (s.pos, s.contentLen, s.xferLen, s.st)) = some (3, 24, 26, .transmitting) := by decide
theorem test_encode_E4 :
    sentBytes (step clearState) = some ([0x00] ++ List.replicate 48 0xC0 ++ [0x00]) := by decide
/-- E6: nothing is sent, nothing responds. -/
theorem test_encode_underrun :
    (nextOf (step shortStreamState)).map (fun s => (s.fault, s.st, s.inflight, s.respSeq)) =
      some (some (.streamUnderrun 1), .encoding, none, 1) := by decide
theorem test_marked : faultOf (step markedState) = some (.streamUnderrun 1) := by decide
/-- P4's empty frame: no transfer, the response at once. -/
theorem test_encode_no_bytes :
    (nextOf (step { noBytesState with now := 70, respSeq := 2 })).map
      (fun s => (statusWord s, s.result, s.deadline, s.txlog)) = some (0x00000304, 0, 120, []) := by decide

/-! ### Transfer, timer, reset, window (sections 7 to 9) -/

theorem test_transfer_done :
    (nextOf (step { sendingState with schedule := [.transferDone] })).map
      (fun s => (statusWord s, s.result, s.deadline, s.txlog)) =
    some (0x00000204, 2, 60, [{ bytes := [0x00, 0x00], outcome := .done }]) := by decide
theorem test_transfer_failed :
    (nextOf (step { sendingState with schedule := [.transferFailed] })).map
      (fun s => (statusWord s, s.result, s.deadline, s.txlog)) =
    some (0x00000279, 0, 0, [{ bytes := [0x00, 0x00], outcome := .failed }]) := by decide
/-- The wait ends at the deadline, not before it. -/
theorem test_cooldown :
    (nextOf (step { coolState 59 with schedule := [.endCooldown] })).map State.st = some .cooldown ∧
    (nextOf (step { coolState 60 with schedule := [.endCooldown] })).map State.st = some .idle := by decide
/-- P7: the log's record stays pending. -/
theorem test_reset :
    (nextOf (step { sendingState with held := [1], schedule := [.reset] })).map
      (fun s => (statusWord s, s.pt, s.held, s.now, s.txlog)) =
    some (0x00000008, none, [], 10, [{ bytes := [0x00, 0x00], outcome := .pending }]) := by decide
theorem test_window_read :
    (nextOf (step { State.reset with schedule := [.host { kind := .read, addr := 0x04, bits := 32, data := 0 }] })).map
      State.readData = some (some 0x00000008) := by decide
/-- A read of CMD, a write of STATUS, a byte read, a misaligned read, an offset past the window. -/
theorem test_window_refused :
    ∀ a ∈ ([⟨.read, 0x00, 32, 0⟩, ⟨.write, 0x04, 32, 0⟩, ⟨.read, 0x04, 8, 0⟩, ⟨.read, 0x02, 32, 0⟩, ⟨.write, 0x10, 32, 0⟩] :
        List Access),
      refusalOf (step { State.reset with schedule := [.host a] }) = some .undefinedAccess := by decide
/-- R56: the line during the first byte `0x80` of a transfer with a period of 2. -/
theorem test_line :
    lineLevel 2 [0x80, 0x01] 1 = some true ∧ lineLevel 2 [0x80, 0x01] 2 = some false ∧
      lineLevel 2 [0x80, 0x01] 31 = some true ∧ lineLevel 2 [0x80, 0x01] 32 = none := by decide
/-- I14: a failed transfer may have sent any prefix and nothing else. -/
theorem test_failed_prefix :
    mayHaveReachedLine { bytes := [1, 2], outcome := .failed } [1] = true ∧
      mayHaveReachedLine { bytes := [1, 2], outcome := .failed } [2] = false ∧
      mayHaveReachedLine { bytes := [1, 2], outcome := .done } [1] = false := by decide

/-! ### Witnesses: for each statement with hypotheses, states and operands that meet all of them -/

/-- The invariant from its parts that `decide` can check, and the one about the transfer. -/
theorem inv_of (s : State)
    (h : s.cfg.wellFormed = true ∧ Memory.wf s.buf = true ∧ (∀ cell ∈ s.buf, cell.1 < s.cfg.bufBytes) ∧
      s.pt.isSome = s.st.usable ∧
      (∀ pt ∈ s.pt, pt.one.length = s.cfg.n ∧ pt.zero.length = s.cfg.n ∧ popcount pt.zero < popcount pt.one) ∧
      (s.st.usable = true → required s.cfg ≤ s.cfg.bufBytes) ∧ s.periphStarted = s.st.usable ∧
      (∀ r ∈ s.req, r.pixels ≤ s.cfg.maxLeds) ∧ (s.st = .encoding → s.req.isSome = true) ∧
      (s.st = .encoding → s.fault = none → ∀ r ∈ s.req, r.kind = .showFrame → s.pos = 0) ∧
      (s.st = .idle ∨ s.st = .encoding ∨ s.st = .transmitting → s.deadline ≤ s.now))
    (transfer : s.st = .transmitting → transferUnderWay s ∧ 0 < s.xferLen.toNat) : Inv s :=
  let ⟨h1, h2, h3, h4, h5, h6, h7, h8, h9, h10, h11⟩ := h
  ⟨h1, h2, h3, h4, h5, h6, h7, h8, h9, h10, transfer, h11⟩

theorem idle_inv : Inv idleState := inv_of _ (by decide) nofun
theorem show_inv : Inv showState := inv_of _ (by decide) nofun
theorem clear_inv : Inv clearState := inv_of _ (by decide) nofun
theorem emptyFrame_inv : Inv emptyFrameState := inv_of _ (by decide) nofun
theorem shortStream_inv : Inv shortStreamState := inv_of _ (by decide) nofun
theorem noBytes_inv : Inv noBytesState := inv_of _ (by decide) nofun
theorem sending_inv : Inv sendingState := inv_of _ (by decide) (fun _ => ⟨⟨by decide, by decide⟩, by decide⟩)
theorem marked_inv : Inv markedState := inv_of _ (by decide) nofun

theorem show_about :
    AboutToEncode showState v1Table { kind := .showFrame, n := 1, scale := 255 } [] :=
  ⟨show_inv, rfl, rfl, rfl, rfl, by unfold streamSuffices; decide, rfl⟩
theorem clear_about :
    AboutToEncode clearState v1Table { kind := .clear, n := 2, scale := 0 } [] :=
  ⟨clear_inv, rfl, rfl, rfl, rfl, by unfold streamSuffices; decide, rfl⟩
theorem emptyFrame_about :
    AboutToEncode emptyFrameState v1Table { kind := .showFrame, n := 0, scale := 0 } [] :=
  ⟨emptyFrame_inv, rfl, rfl, rfl, rfl, by unfold streamSuffices; decide, rfl⟩
theorem noBytes_about :
    AboutToEncode noBytesState p4Table { kind := .showFrame, n := 0, scale := 0 } [] :=
  ⟨noBytes_inv, rfl, rfl, rfl, rfl, by unfold streamSuffices; decide, rfl⟩

/-- The state with one word held and its acceptance next. -/
def holding (s : State) (w : Word) : State := { s with held := [w], schedule := [.accept 0] }

theorem accept_about (s : State) (w : Word) (hc : s.cfg.wellFormed = true) (hf : s.fault = none) :
    AboutToAccept (holding s w) 0 w [] := ⟨hc, hf, rfl, rfl⟩

/-- The answer is this next state's view, so it is a next state. -/
theorem next_of_some {a : Answer} (h : (nextOf a).isSome = true) : ∃ t, a = .next t := by
  cases a with
  | next t => exact ⟨t, rfl⟩
  | fault _ | refused _ => exact absurd h (by simp [nextOf])

theorem witness_EncodeOfDecode : ∃ (w : Word) (i : Instr), decode w = .ok i := ⟨0x00001FF2, _, rfl⟩
/-- Texts of numbers: the largest operands and one past each, in either base, with leading zeros and either case; a text
that assembles; and operand texts that are no numbers. -/
theorem witness_AssemblerEncodesCommands :
    (NumberSpells ['1', '0', '4', '8', '5', '7', '5'] 1048575 ∧ NumberSpells ['0', 'x', '0', 'F', 'f'] 255 ∧
      NumberSpells ['0', '2', '5', '6'] 256 ∧ NumberSpells ['0', 'x', '1', '0', '0', '0', '0', '0'] 1048576) ∧
    ['0', 'x', 'f', 'f'] ∈ numerals 255 ∧
    assemble (showText ['1', '0', '4', '8', '5', '7', '5'] ['0', 'x', '0', 'F', 'f']) = some 0xFFFFFFF2 ∧
    (∀ text ∈ [clearText ['f', 'o', 'o'], showText ['1', 'x'] ['2'], clearText ['0', 'x'], clearText [],
        clearText ['0', 'x', '1', '0', '0', '0', '0', '0'], showText ['1'] ['0', '2', '5', '6']],
      assemble text = none) :=
  ⟨⟨numberValue_iff.mp rfl, numberValue_iff.mp rfl, numberValue_iff.mp rfl, numberValue_iff.mp rfl⟩, by decide,
    by decide, by decide⟩

/-- Once with a word the block is ready for, once with one it is not. -/
theorem witness_StepRunsTheAcceptedCommand :
    (AboutToAccept (holding idleState 0x2003) 0 0x2003 [] ∧ decode 0x2003 = .ok (.clear 2) ∧
      ready (holding idleState 0x2003).st (.ok (.clear 2)) = true) ∧
    (AboutToAccept (holding (coolState 59) 0x2003) 0 0x2003 [] ∧
      ready (holding (coolState 59) 0x2003).st (.ok (.clear 2)) = false) :=
  ⟨⟨accept_about _ _ rfl rfl, rfl, rfl⟩, accept_about _ _ rfl rfl, rfl⟩

theorem witness_IllegalWordOnlyResponds :
    (AboutToAccept (holding idleState 0x0) 0 0x0 [] ∧ (∀ row ∈ opcodeRows, row.matches 0x0 = false) ∧
      (holding idleState 0x0).st ≠ .encoding ∧ (holding idleState 0x0).st ≠ .transmitting) ∧
    (AboutToAccept (holding (coolState 59) 0x2013) 0 0x2013 [] ∧
      (∀ row ∈ opcodeRows, row.matches 0x2013 = false)) :=
  ⟨⟨accept_about _ _ rfl rfl, by decide, by decide, by decide⟩, accept_about _ _ rfl rfl, by decide⟩

theorem witness_UnreadyCommandIsHeld :
    AboutToAccept (holding showState 0x0) 0 0x0 [] ∧ (holding showState 0x0).st = .encoding ∧
    AboutToAccept (holding sendingState 0x1) 0 0x1 [] ∧ (holding sendingState 0x1).st = .transmitting ∧
    AboutToAccept (holding (coolState 60) 0x2003) 0 0x2003 [] ∧ (holding (coolState 60) 0x2003).st = .cooldown ∧
    decode 0x2003 = .ok (.clear 2) ∧
    AboutToAccept (holding (coolState 60) 0x1FF2) 0 0x1FF2 [] ∧ decode 0x1FF2 = .ok (.showFrame 1 255) :=
  ⟨accept_about _ _ rfl rfl, rfl, accept_about _ _ rfl rfl, rfl, accept_about _ _ rfl rfl, rfl, rfl,
    accept_about _ _ rfl rfl, rfl⟩

theorem witness_UnusableBlockOnlyResponds :
    State.reset.st = .unconfigured ∧ ({ State.reset with st := .cfgError } : State).st = .cfgError ∧
      Instr.maxRate ≠ .init ∧ Instr.clear 0 ≠ .init ∧ Instr.showFrame 1 2 ≠ .init := by decide

/-- V1's constants, in a buffer of exactly the needed size. -/
theorem witness_InitFromConstants :
    State.reset.st = .unconfigured ∧ State.reset.cfg.patMode = .const ∧
      popcount State.reset.cfg.zeroConst < popcount State.reset.cfg.oneConst ∧
      required State.reset.cfg = State.reset.cfg.bufBytes := by decide

/-- P4's derivation, in a buffer of exactly the needed size. -/
theorem witness_InitFromDerivation :
    (State.resetWith p4Config).st = .unconfigured ∧ p4Config.patMode = .derive ∧
      natDist (kOf 3 52 800 * 52) 800 ≤ 150 ∧ natDist (kOf 3 52 400 * 52) 400 ≤ 150 ∧
      p4Config.n = 3 ∧ p4Config.bitPeriod = 52 ∧ p4Config.tHighOne = 800 ∧ p4Config.tHighZero = 400 ∧
      p4Config.tol = 150 ∧ kOf 3 52 400 < kOf 3 52 800 ∧ required p4Config = p4Config.bufBytes := by decide

/-- The error of a count against a target, in the units of a configuration. -/
def countError (c : Config) (target : Nat) : Nat := natDist (kOf c.n c.bitPeriod target * c.bitPeriod) target

/-- INIT where it has run; each way the patterns fail, at its boundary (rows I-6, B12, one with ZERO's target alone missed,
B8); and good patterns one byte short of the capacity in each mode. -/
theorem witness_InitErrorsInOrder :
    (idleState.st = .idle ∧ (coolState 0).st = .cooldown ∧ ∀ c ∈ [Config.v1Default, p4Config],
      (State.resetWith c).st = .unconfigured) ∧
    (∀ c ∈ [({ Config.v1Default with oneConst := [0xF0], zeroConst := [0xF0] } : Config)],
      c.patMode = .const ∧ popcount c.oneConst = popcount c.zeroConst) ∧
    (∀ c ∈ [rowConfig 1 100 850 150 149], c.patMode = .derive ∧ countError c c.tHighOne = c.tol + 1) ∧
    (∀ c ∈ [rowConfig 1 100 700 150 49], c.patMode = .derive ∧ countError c c.tHighZero = c.tol + 1) ∧
    (∀ c ∈ [rowConfig 1 156 400 400 150], c.patMode = .derive ∧
      kOf c.n c.bitPeriod c.tHighOne = kOf c.n c.bitPeriod c.tHighZero) ∧
    (∀ c ∈ [({ Config.v1Default with bufBytes := 49 } : Config)],
      c.patMode = .const ∧ popcount c.zeroConst < popcount c.oneConst ∧ c.bufBytes + 1 = required c) ∧
    (∀ c ∈ [({ p4Config with bufBytes := 143 } : Config)],
      c.patMode = .derive ∧ countError c c.tHighOne ≤ c.tol ∧ countError c c.tHighZero ≤ c.tol ∧
        kOf c.n c.bitPeriod c.tHighZero < kOf c.n c.bitPeriod c.tHighOne ∧ c.bufBytes + 1 = required c) := by decide

theorem witness_DerivedPatternShape : 24 ≤ 8 * 3 ∧ 1 ≤ p4Config.n ∧ build p4Config = some p4Table := by decide

/-- Both ends of the range of counts; row B5's midpoint, where two counts have the least error. -/
theorem witness_NearestCountHasLeastError :
    1 ≤ 1 ∧ 0 < 100 ∧ 1 ≤ 7 ∧ 7 ≤ 8 * 1 - 1 ∧ kOf 1 100 250 = 2 ∧
      natDist (kOf 1 100 250 * 100) 250 = natDist (3 * 100) 250 := by decide

/-- A count of exactly `MAX_LEDS`, and one more. -/
theorem witness_ShowLatchesItsRequest : idleState.st = .idle ∧ (2 : BitVec 20).toNat = idleState.cfg.maxLeds := by decide
theorem witness_ClearLatchesItsRequest : idleState.st = .idle ∧ (0 : BitVec 20).toNat ≤ idleState.cfg.maxLeds := by decide
theorem witness_OverrunIsRejected : idleState.st = .idle ∧ idleState.cfg.maxLeds + 1 = (3 : BitVec 20).toNat := by decide
theorem witness_AcceptedFrameFitsTheBuffer :
    Inv idleState ∧ idleState.st.usable = true ∧ 2 ≤ idleState.cfg.maxLeds := ⟨idle_inv, by decide, by decide⟩
theorem witness_MaxRateReportsTheParameter : idleState.st = .idle ∧ (coolState 0).st = .cooldown := by decide

theorem witness_ScaleHasNoEffect :
    (∃ t, exec (.showFrame 1 255) idleState = .next t) ∧
    (showState.req = some { kind := .showFrame, n := 1, scale := 255 } ∧ ∃ t, step showState = .next t) :=
  ⟨next_of_some (by decide), rfl, next_of_some (by decide)⟩

theorem witness_InitFrame : ∃ t, exec .init State.reset = .next t := next_of_some (by decide)
theorem witness_ShowFrame : ∃ t, exec (.showFrame 2 0) idleState = .next t := next_of_some (by decide)
theorem witness_ClearFrame : ∃ t, exec (.clear 2) idleState = .next t := next_of_some (by decide)
theorem witness_MaxRateFrame : ∃ t, exec .maxRate idleState = .next t := next_of_some (by decide)

/-- The first and the last bit of the frame's components, its framing bytes, and the cells behind it. -/
theorem witness_EncodedFrameLayout :
    AboutToEncode showState v1Table { kind := .showFrame, n := 1, scale := 255 } [] ∧
    showState.cfg.lead[0]? = some 0x00 ∧ showState.cfg.trail[0]? = some 0x00 ∧
    (componentsOf showState { kind := .showFrame, n := 1, scale := 255 })[3 * 0 + 1]? = some 0xFF ∧
    (componentsOf showState { kind := .showFrame, n := 1, scale := 255 })[3 * 0 + 2]? = some 0x00 ∧
    xlen showState.cfg (ledCount 1) = 26 :=
  ⟨show_about, by decide, by decide, by decide, by decide, by decide⟩
theorem witness_EncoderReturnsLengths :
    AboutToEncode clearState v1Table { kind := .clear, n := 2, scale := 0 } [] := clear_about
theorem witness_EmptyFrameIsOnlyFraming :
    AboutToEncode emptyFrameState v1Table { kind := .showFrame, n := 0, scale := 0 } [] ∧
      (Request.pixels { kind := .showFrame, n := 0, scale := 0 }) = 0 ∧ framing emptyFrameState.cfg = 2 :=
  ⟨emptyFrame_about, rfl, rfl⟩
theorem witness_EncoderReadsExactlyItsComponents :
    AboutToEncode showState v1Table { kind := .showFrame, n := 1, scale := 255 } [] ∧
      AboutToEncode clearState v1Table { kind := .clear, n := 2, scale := 0 } [] := ⟨show_about, clear_about⟩

/-- Two CLEAR frames of one count over different buffers, streams and clocks. -/
theorem witness_ClearFrameIsAllZero :
    AboutToEncode clearState v1Table { kind := .clear, n := 2, scale := 0 } [] ∧
    AboutToEncode { clearState with buf := [], stream := [], pos := 0, now := 7 } v1Table
      { kind := .clear, n := 2, scale := 0 } [] ∧
    0 < xlen clearState.cfg 2 :=
  ⟨clear_about, ⟨inv_of _ (by decide) nofun, rfl, rfl, rfl, rfl, by unfold streamSuffices; decide, rfl⟩, by decide⟩

theorem witness_ZeroStreamShowEqualsClear :
    AboutToEncode { showState with stream := [0x00, 0x00, 0x00] } v1Table
      { kind := .showFrame, n := 1, scale := 255 } [] ∧
    ([0x00, 0x00, 0x00] : List Byte) = List.replicate (3 * 1) 0x00 ∧ 0 < xlen showState.cfg 1 :=
  ⟨⟨inv_of _ (by decide) nofun, rfl, rfl, rfl, rfl, by unfold streamSuffices; decide, rfl⟩, by decide, by decide⟩

theorem witness_ContentReadsBack :
    AboutToEncode showState v1Table { kind := .showFrame, n := 1, scale := 255 } [] ∧
      AboutToEncode clearState v1Table { kind := .clear, n := 2, scale := 0 } [] := ⟨show_about, clear_about⟩

theorem witness_FrameIgnoresOldBuffer :
    AboutToEncode showState v1Table { kind := .showFrame, n := 1, scale := 255 } [] ∧
      Memory.wf [(0, 0x77), (49, 0x01)] = true ∧ ∀ cell ∈ ([(0, 0x77), (49, 0x01)] : Memory), cell.1 < showState.cfg.bufBytes :=
  ⟨show_about, by decide, by decide⟩

/-- Short by two components (vector E6), and an empty stream (vector E7). -/
theorem witness_ShortStreamRaisesTheMark :
    (Inv shortStreamState ∧ shortStreamState.fault = none ∧ shortStreamState.st = .encoding ∧
      shortStreamState.req = some { kind := .showFrame, n := 2, scale := 0 } ∧ shortStreamState.schedule = [.encode] ∧
      shortStreamState.stream.length < 3 * 2) ∧
    Inv { shortStreamState with stream := [] } :=
  ⟨⟨shortStream_inv, rfl, rfl, rfl, rfl, by decide⟩, inv_of _ (by decide) nofun⟩

theorem witness_MarkedBlockTakesNoStep :
    markedState.fault = some (.streamUnderrun 1) ∧ markedState.cfg.wellFormed = true ∧
      markedState.schedule = [.encode] ∧ Event.encode.ofBlock = true ∧
      (∃ t, step { markedState with schedule := [.clock 1] } = .next t) :=
  ⟨rfl, by decide, rfl, rfl, next_of_some (by decide)⟩

theorem witness_EncodingHandsTheFrameOver :
    AboutToEncode emptyFrameState v1Table { kind := .showFrame, n := 0, scale := 0 } [] ∧
      0 < xlen emptyFrameState.cfg 0 := ⟨emptyFrame_about, by decide⟩
theorem witness_ZeroLengthFrameFinishesAtOnce :
    AboutToEncode noBytesState p4Table { kind := .showFrame, n := 0, scale := 0 } [] ∧ xlen noBytesState.cfg 0 = 0 :=
  ⟨noBytes_about, by decide⟩

/-- In TRANSMITTING, and in another state. -/
theorem witness_CompletionArmsTheHoldoff :
    sendingState.cfg.wellFormed = true ∧ sendingState.st = .transmitting ∧
      sendingState.txlog = [] ++ [{ bytes := [0x00, 0x00], outcome := .pending }] ∧
      ({ sendingState with schedule := [.transferDone] } : State).schedule = [.transferDone] ∧
      idleState.st ≠ .transmitting := by decide
theorem witness_FailureReturnsToIdle :
    sendingState.cfg.wellFormed = true ∧ sendingState.st = .transmitting ∧
      sendingState.txlog = [] ++ [{ bytes := [0x00, 0x00], outcome := .pending }] ∧
      ({ sendingState with schedule := [.transferFailed] } : State).schedule = [.transferFailed] ∧
      idleState.st ≠ .transmitting := by decide

/-- At the deadline, one tick before it, and outside COOLDOWN. -/
theorem witness_CooldownEndsAtTheDeadline :
    (coolState 60).cfg.wellFormed = true ∧ (coolState 60).fault = none ∧ (coolState 60).st = .cooldown ∧
      (coolState 60).deadline = (coolState 60).now ∧ (coolState 59).now + 1 = (coolState 59).deadline ∧
      idleState.st ≠ .cooldown ∧
      ({ coolState 60 with schedule := [.endCooldown] } : State).schedule = [.endCooldown] := by decide

theorem witness_ResetKeepsTheOutside :
    markedState.cfg.wellFormed = true ∧ ({ markedState with schedule := [.reset] } : State).schedule = [.reset] := by
  decide

/-- STATUS with READY set and clear; a write of it. -/
theorem witness_StatusFields :
    (statusWord idleState).getLsbD 3 = true ∧ (statusWord (coolState 0)).getLsbD 3 = false ∧
      (coolState 0).st = .cooldown ∧ State.reset.cfg.wellFormed = true ∧
      ({ kind := .write, addr := 0x04, bits := 32, data := 0 } : Access).addr = State.reset.cfg.regBase + 0x04 := by decide

/-- The four defined accesses, and the offsets next to them. -/
theorem witness_OnlyDefinedAccessesHaveMeaning :
    (∀ a ∈ ([⟨.write, 0x00, 32, 1⟩, ⟨.read, 0x04, 32, 0⟩, ⟨.read, 0x08, 32, 0⟩, ⟨.read, 0x0C, 32, 0⟩] : List Access),
      refusalOf (step { State.reset with schedule := [.host a] }) = none) ∧
    (∀ a ∈ ([⟨.write, 0x01, 32, 1⟩, ⟨.read, 0x03, 32, 0⟩, ⟨.write, 0x0C, 32, 0⟩, ⟨.read, 0x0C, 64, 0⟩, ⟨.read, 0x10, 32, 0⟩] :
        List Access),
      refusalOf (step { State.reset with schedule := [.host a] }) = some .undefinedAccess) := by decide

theorem witness_ReadsReturnRegisters :
    State.reset.cfg.wellFormed = true ∧ State.reset.cfg.regBase = 0 ∧
      ({ State.reset with schedule := [.host ⟨.read, 0x0C, 32, 0⟩] } : State).schedule = [.host ⟨.read, 0x0C, 32, 0⟩] := by
  decide
theorem witness_CommandWriteIsHeld :
    State.reset.cfg.wellFormed = true ∧ State.reset.cfg.regBase = 0 ∧
      ({ State.reset with schedule := [.host ⟨.write, 0x00, 32, 1⟩] } : State).schedule =
        [.host ⟨.write, 0x00, 32, 1⟩] := by decide

/-- The first and the last time of the last bit of a transfer, and the first time after it. -/
theorem witness_LineFollowsTheBytes :
    0 < 2 ∧ ([0x80, 0x01] : List Byte)[1]? = some 0x01 ∧ 7 < 8 ∧ 1 < 2 ∧ (8 * 1 + 7) * 2 + 1 = 31 ∧
      8 * ([0x80, 0x01] : List Byte).length * 2 ≤ 32 := by decide

theorem witness_IllFormedConfigurationIsRefused :
    ({ State.reset with cfg := { Config.v1Default with bufBytes := 2 ^ 32 } } : State).cfg.wellFormed = false ∧
      Config.wellFormed { Config.v1Default with bufBytes := 2 ^ 32 - 1 } = true := by decide
theorem witness_InvariantAtReset : p4Config.wellFormed = true := by decide

theorem witness_StepKeepsTheInvariant : Inv showState ∧ ∃ t, step showState = .next t :=
  ⟨show_inv, next_of_some (by decide)⟩
theorem witness_InvariantLimitsTheStops :
    (Inv markedState ∧ faultOf (step markedState) = some (.streamUnderrun 1)) ∧
      (Inv { idleState with schedule := [.host ⟨.read, 0x10, 32, 0⟩] } ∧
        refusalOf (step { idleState with schedule := [.host ⟨.read, 0x10, 32, 0⟩] }) = some .undefinedAccess) :=
  ⟨⟨marked_inv, by decide⟩, inv_of _ (by decide) nofun, by decide⟩

/-- Each listed transition happens: the state after a step from one that is about to take it. -/
theorem witness_OnlyListedTransitions :
    (nextOf (step (holding State.reset 0x1))).map State.st = some .cooldown ∧
    (nextOf (step (holding { State.reset with cfg := { Config.v1Default with bufBytes := 49 } } 0x1))).map State.st =
      some .cfgError ∧
    (nextOf (step (holding idleState 0x2003))).map State.st = some .encoding ∧
    (nextOf (step showState)).map State.st = some .transmitting ∧
    (nextOf (step noBytesState)).map State.st = some .cooldown ∧
    (nextOf (step { sendingState with schedule := [.transferDone] })).map State.st = some .cooldown ∧
    (nextOf (step { sendingState with schedule := [.transferFailed] })).map State.st = some .idle ∧
    (nextOf (step { coolState 60 with schedule := [.endCooldown] })).map State.st = some .idle ∧
    (nextOf (step { showState with schedule := [.reset] })).map State.st = some .unconfigured := by decide

theorem witness_PatternTableIsWrittenByInitOnly :
    (nextOf (step (holding State.reset 0x1))).map State.pt = some (some v1Table) ∧ State.reset.pt = none ∧
      (nextOf (step { idleState with schedule := [.reset] })).map State.pt = some none ∧ idleState.pt ≠ none := by decide
theorem witness_OnlyEncodingWritesTheBuffer :
    (nextOf (step emptyFrameState)).map State.buf = some [(0, 0x00), (1, 0x00)] ∧ emptyFrameState.buf = [] ∧
      (nextOf (step { sendingState with schedule := [.reset] })).map State.buf = some [] ∧ sendingState.buf ≠ [] := by decide
theorem witness_OutsideStateOnlyGrows :
    (nextOf (step { idleState with schedule := [.clock 3] })).map State.now = some 3 ∧ idleState.now ≠ 3 ∧
      (nextOf (step emptyFrameState)).map State.txlog = some [{ bytes := [0x00, 0x00], outcome := .pending }] := by decide
theorem witness_ResponsesComeOneAtATime :
    (nextOf (step (holding idleState 0x0))).map State.respSeq = some 2 ∧ idleState.respSeq = 1 ∧
      (nextOf (step showState)).map State.respSeq = some 1 ∧
      (nextOf (step { idleState with schedule := [.reset] })).map State.respSeq = some 0 := by decide

/-- A completion, the whole hold-off, and the next CLEAR accepted at its end. -/
def nextFrameState : State :=
  { sendingState with held := [0x00000003], schedule := [.transferDone, .clock 50, .endCooldown, .accept 0] }

theorem witness_HoldoffBeforeTheNextFrame :
    nextFrameState.st = .transmitting ∧
      nextFrameState.schedule = .transferDone :: [.clock 50, .endCooldown, .accept 0] ∧
      (∀ e ∈ ([.clock 50, .endCooldown, .accept 0] : List Event), e ≠ .reset) ∧
      (nextOf (runSteps (3 + 1) nextFrameState)).map State.st = some .encoding ∧
      (nextOf (runSteps (3 + 1) nextFrameState)).map State.now = some (nextFrameState.now + nextFrameState.cfg.holdoff) := by
  decide

/-- A transfer under way while the host presents a command that is not accepted. -/
def waitingState : State :=
  { sendingState with schedule := [.host ⟨.write, 0x00, 32, 0x00000003⟩, .accept 0, .clock 1000] }

theorem witness_SilentPeripheralHoldsEverything :
    waitingState.st = .transmitting ∧
      (∀ e ∈ waitingState.schedule, e.ofPeripheral = false ∧ e ≠ .reset) ∧
      (nextOf (runSteps 3 waitingState)).map (fun t => (t.st, t.held, t.now)) =
        some (.transmitting, [0x00000003], 1010) := by decide

theorem witness_DisabledEventsChangeNothing :
    idleState.cfg.wellFormed = true ∧ idleState.schedule = [] ∧ idleState.fault = none ∧ idleState.held[0]? = none ∧
      idleState.st ≠ .encoding := by decide

end Sys2Proof.Tests
end

section
/-! PROOF. Well-formed configurations (R10): the check as a proposition, and the step's refusal of any other. -/

namespace Sys2Proof
open Machine

/-- R10's condition on the pattern sources, one clause per mode. -/
theorem Config.patternsWellFormed_iff (c : Config) :
    c.patternsWellFormed = true ↔
      (c.patMode = .const → c.oneConst.length = c.n ∧ c.zeroConst.length = c.n) ∧
        (c.patMode = .derive → 0 < c.bitPeriod) := by
  cases hmode : c.patMode with
  | const => simp [Config.patternsWellFormed, hmode]
  | derive => simp [Config.patternsWellFormed, hmode]

/-- R10's four conditions. -/
theorem Config.wellFormed_iff (c : Config) :
    c.wellFormed = true ↔
      1 ≤ c.n ∧ (c.patMode = .const → c.oneConst.length = c.n ∧ c.zeroConst.length = c.n) ∧
        (c.patMode = .derive → 0 < c.bitPeriod) ∧ c.bufBytes < 2 ^ 32 := by
  simp only [Config.wellFormed, Bool.and_eq_true, decide_eq_true_eq, c.patternsWellFormed_iff, and_assoc]

/-- The step looks at the configuration first: an ill-formed one is refused whatever the schedule holds. -/
theorem step_illFormed {s : State} (hc : s.cfg.wellFormed = false) : step s = .refused .illFormedConfig := by
  simp [step, stepMachine, hc]

/-- Settles O49: the four conditions are the check's own, and the step makes the check before any event. -/
theorem illFormedConfigurationIsRefused : Obligations.IllFormedConfigurationIsRefused :=
  ⟨Config.wellFormed_iff, fun _ hc => step_illFormed hc⟩

end Sys2Proof
end

section
/-! PROOF. The STATUS word (R36): its fields read one by one, the readiness its READY bit promises (R140), and the host's
writes beside CMD (R60). -/

namespace Sys2Proof.Machine

/-! ### The fields of STATUS -/

@[simp] theorem statusWord_stateField (s : State) : (statusWord s).extractLsb' 0 3 = s.st.code :=
  BitVec.extractLsb'_append_eq_right

theorem statusWord_readyBit (s : State) : (statusWord s).getLsbD 3 = s.st.readyBit :=
  calc (statusWord s).getLsbD 3
      = ((0 : BitVec 8) ++ s.respSeq ++ s.err.code ++ BitVec.ofBool s.st.readyBit).getLsbD 0 := BitVec.getLsbD_append
    _ = (BitVec.ofBool s.st.readyBit).getLsbD 0 := BitVec.getLsbD_append
    _ = s.st.readyBit := by simp

/-- What STATUS holds above READY. -/
theorem statusWord_aboveReady (s : State) (start len : Nat) :
    (statusWord s).extractLsb' (start + 1 + 3) len =
      ((0 : BitVec 8) ++ s.respSeq ++ s.err.code).extractLsb' start len :=
  (BitVec.extractLsb'_append_eq_of_le (Nat.le_add_left 3 _)).trans
    (BitVec.extractLsb'_append_eq_of_le (Nat.le_add_left 1 _))

@[simp] theorem statusWord_errField (s : State) : (statusWord s).extractLsb' 4 4 = s.err.code :=
  (statusWord_aboveReady s 0 4).trans BitVec.extractLsb'_append_eq_right

@[simp] theorem statusWord_respSeqField (s : State) : (statusWord s).extractLsb' 8 16 = s.respSeq :=
  calc (statusWord s).extractLsb' 8 16
      = ((0 : BitVec 8) ++ s.respSeq ++ s.err.code).extractLsb' 4 16 := statusWord_aboveReady s 4 16
    _ = ((0 : BitVec 8) ++ s.respSeq).extractLsb' 0 16 := BitVec.extractLsb'_append_eq_of_le (by decide)
    _ = s.respSeq := BitVec.extractLsb'_append_eq_right

@[simp] theorem statusWord_reservedField (s : State) : (statusWord s).extractLsb' 24 8 = (0 : BitVec 8) :=
  calc (statusWord s).extractLsb' 24 8
      = ((0 : BitVec 8) ++ s.respSeq ++ s.err.code).extractLsb' 20 8 := statusWord_aboveReady s 20 8
    _ = ((0 : BitVec 8) ++ s.respSeq).extractLsb' 16 8 := BitVec.extractLsb'_append_eq_of_le (by decide)
    _ = (0 : BitVec 8) := BitVec.extractLsb'_append_eq_left

/-- At the start STATUS shows READY alone, whatever the configuration. -/
theorem statusWord_resetWith (c : Config) : statusWord (State.resetWith c) = 0x00000008 := by
  show (0 : BitVec 8) ++ (0 : BitVec 16) ++ ErrCode.ok.code ++ BitVec.ofBool true ++ SeqState.unconfigured.code = _
  decide

/-! ### READY -/

theorem readyBit_iff {st : SeqState} : st.readyBit = true ↔ st = .unconfigured ∨ st = .idle ∨ st = .cfgError := by
  cases st <;> decide

/-- READY is R140's gate for every command at once: it is set only where no decoded word is held back. -/
theorem ready_of_readyBit {st : SeqState} (h : st.readyBit = true) (d : Decoded) : ready st d = true := by
  rcases readyBit_iff.mp h with rfl | rfl | rfl <;> rfl

/-! ### Host writes -/

@[simp] theorem windowOffset_base_add (c : Config) (offset : Nat) : windowOffset c (c.regBase + offset) = some offset := by
  simp [windowOffset]

/-- CMD is the only writable register (R35, R60), whatever the access's width. -/
theorem accessRegister_write_refused (s : State) {a : Access} (hk : a.kind = .write) {offset : Nat} (ho : offset ≠ 0) :
    accessRegister s a offset = .refused .undefinedAccess := by
  simp [accessRegister, hk, ho]

theorem hostEvent_write_refused {s : State} {a : Access} (hk : a.kind = .write) {offset : Nat}
    (ha : a.addr = s.cfg.regBase + offset) (ho : offset ≠ 0) : hostEvent s a = .refused .undefinedAccess := by
  rw [hostEvent, ha, windowOffset_base_add]
  exact accessRegister_write_refused s hk ho

/-- Settles O43: a write at 0x04 is a write beside CMD, and every field of STATUS is the register or code it is built
from. -/
theorem statusFields : Obligations.StatusFields := by
  refine ⟨statusWord_resetWith, fun s a rest hc hs hk ha => ?_, fun s => ⟨?_, ?_, ?_, ?_, ?_, ?_, ?_⟩⟩
  · rw [step_event hc hs]
    exact hostEvent_write_refused hk ha (by decide)
  · rw [statusWord_stateField]
    cases s.st <;> rfl
  · rw [statusWord_readyBit, readyBit_iff]
  · rw [statusWord_readyBit]
    exact ready_of_readyBit
  · rw [statusWord_errField]
    cases s.err <;> rfl
  · exact statusWord_respSeqField s
  · exact statusWord_reservedField s
  · intro hcool
    rw [statusWord_readyBit, hcool]
    exact ⟨rfl, rfl, rfl⟩

end Sys2Proof.Machine
end

section
/-! PROOF. The data line (R56): the bit at each place of the wire order, and the line's level at each time. -/

namespace Sys2Proof.Machine

/-- A list made of blocks of `n` entries each: entry `j` of block `i`. -/
theorem getElem?_flatMap_block {α β : Type} {f : α → List β} {n : Nat} (hf : ∀ x, (f x).length = n) (xs : List α)
    (i : Nat) {j : Nat} (hj : j < n) : (xs.flatMap f)[i * n + j]? = xs[i]?.bind fun x => (f x)[j]? := by
  induction xs generalizing i with
  | nil => rfl
  | cons x xs ih =>
    rw [List.flatMap_cons]
    cases i with
    | zero =>
      rw [Nat.zero_mul, Nat.zero_add, List.getElem?_append_left (by rw [hf]; exact hj)]
      rfl
    | succ i =>
      have hskip : (i + 1) * n + j - n = i * n + j := by rw [Nat.succ_mul]; omega
      rw [List.getElem?_append_right (by rw [hf, Nat.succ_mul]; omega), hf, hskip, ih]
      rfl

@[simp] theorem wireBitsOfByte_length (v : Byte) : (wireBitsOfByte v).length = 8 := rfl

/-- The j-th bit of a byte on the wire is its bit `7 - j`: most significant first. -/
theorem wireBitsOfByte_getElem? (v : Byte) {j : Nat} (hj : j < 8) :
    (wireBitsOfByte v)[j]? = some (v.getLsbD (7 - j)) := by
  rw [wireBitsOfByte, List.getElem?_map, List.getElem?_range hj]
  rfl

/-- Place `8 * i + j` of the wire order is bit `7 - j` of byte `i`. -/
theorem wireBits_getElem? {bytes : List Byte} {i j : Nat} {v : Byte} (hv : bytes[i]? = some v) (hj : j < 8) :
    (wireBits bytes)[i * 8 + j]? = some (v.getLsbD (7 - j)) := by
  rw [wireBits, getElem?_flatMap_block wireBitsOfByte_length bytes i hj, hv]
  exact wireBitsOfByte_getElem? v hj

theorem wireBits_length (bytes : List Byte) : (wireBits bytes).length = bytes.length * 8 := by
  simp [wireBits, List.length_flatMap]

/-- Throughout the k-th bit period the line has the level of the k-th wire bit. -/
theorem lineLevel_during {period d : Nat} (hd : d < period) (bytes : List Byte) (k : Nat) :
    lineLevel period bytes (k * period + d) = (wireBits bytes)[k]? := by
  rw [lineLevel, Nat.mul_comm, Nat.mul_add_div (by omega), Nat.div_eq_of_lt hd, Nat.add_zero]

/-- The transfer is over once every wire bit has been held for its period. -/
theorem lineLevel_eq_none_iff {period : Nat} (hp : 0 < period) (bytes : List Byte) (time : Nat) :
    lineLevel period bytes time = none ↔ bytes.length * 8 * period ≤ time := by
  rw [lineLevel, List.getElem?_eq_none_iff, wireBits_length, Nat.le_div_iff_mul_le hp]

/-- Settles O47: the bit period a time falls in picks the wire bit, and the wire bits are eight a byte. -/
theorem lineFollowsTheBytes : Obligations.LineFollowsTheBytes := by
  refine ⟨fun period bytes i j d v _ hv hj hd => ?_, fun period bytes time hp => ?_⟩
  · rw [lineLevel_during hd, Nat.mul_comm 8 i, wireBits_getElem? hv hj]
  · rw [lineLevel_eq_none_iff hp, Nat.mul_comm 8]

end Sys2Proof.Machine
end

section
/-! PROOF. The buffer layout (R52): each cell of a frame's bytes by the spec's offset formula, and the buffer after the
ENCODING step as those bytes over the old cells. -/

namespace Sys2Proof.Machine

/-! ### The frame's bytes by offset -/

/-- The content of a frame is one pattern for each wire bit of its components. -/
theorem frameBytes_eq_wireBits (c : Config) (pt : PatternTable) (comps : List Byte) :
    frameBytes c pt comps = c.lead ++ ((wireBits comps).flatMap pt.pick ++ c.trail) := by
  rw [frameBytes, wireBits, List.flatMap_assoc, List.append_assoc]

theorem pick_length {c : Config} {pt : PatternTable} (h : patternsSound c pt) (bit : Bool) :
    (pt.pick bit).length = c.n := by
  obtain ⟨hone, hzero, _⟩ := h
  cases bit
  · exact hzero
  · exact hone

theorem contentBytes_length {c : Config} {pt : PatternTable} (h : patternsSound c pt) (comps : List Byte) :
    ((wireBits comps).flatMap pt.pick).length = comps.length * 8 * c.n := by
  simp [List.length_flatMap, pick_length h, wireBits_length]

/-- R52's first line. -/
theorem frameBytes_lead {c : Config} (pt : PatternTable) (comps : List Byte) {i : Nat} {v : Byte}
    (hv : c.lead[i]? = some v) : (frameBytes c pt comps)[i]? = some v := by
  rw [frameBytes_eq_wireBits, List.getElem?_append_left (List.getElem?_eq_some_iff.mp hv).1, hv]

/-- R52's second line: byte `j` of the pattern of bit `b` of the k-th component. -/
theorem frameBytes_content {c : Config} {pt : PatternTable} (h : patternsSound c pt) {comps : List Byte} {k b j : Nat}
    {comp v : Byte} (hk : comps[k]? = some comp) (hb : b < 8) (hv : (pt.pick (comp.getLsbD b))[j]? = some v) :
    (frameBytes c pt comps)[c.lead.length + (k * 8 + (7 - b)) * c.n + j]? = some v := by
  have hj : j < c.n := pick_length h (comp.getLsbD b) ▸ (List.getElem?_eq_some_iff.mp hv).1
  have hbit : (wireBits comps)[k * 8 + (7 - b)]? = some (comp.getLsbD b) := by
    rw [wireBits_getElem? hk (by omega), show 7 - (7 - b) = b by omega]
  have hcell : ((wireBits comps).flatMap pt.pick)[(k * 8 + (7 - b)) * c.n + j]? = some v := by
    rw [getElem?_flatMap_block (pick_length h) _ _ hj, hbit, Option.bind_some, hv]
  rw [frameBytes_eq_wireBits, Nat.add_assoc, List.getElem?_append_right (Nat.le_add_right _ _), Nat.add_sub_cancel_left,
    List.getElem?_append_left (List.getElem?_eq_some_iff.mp hcell).1, hcell]

/-- R52's third line. -/
theorem frameBytes_trail {c : Config} {pt : PatternTable} (h : patternsSound c pt) (comps : List Byte) {i : Nat} {v : Byte}
    (hv : c.trail[i]? = some v) : (frameBytes c pt comps)[c.lead.length + comps.length * 8 * c.n + i]? = some v := by
  rw [frameBytes_eq_wireBits, Nat.add_assoc, List.getElem?_append_right (Nat.le_add_right _ _), Nat.add_sub_cancel_left,
    List.getElem?_append_right (by rw [contentBytes_length h]; exact Nat.le_add_right _ _), contentBytes_length h,
    Nat.add_sub_cancel_left, hv]

/-! ### The buffer after the ENCODING step -/

/-- The buffer after the ENCODING step: the frame's bytes below `XLEN(n)`, the old cells from there on. -/
theorem AboutToEncode.step_buf {s : State} {pt : PatternTable} {r : Request} {rest : List Event}
    (h : AboutToEncode s pt r rest) :
    ∃ t, step s = .next t ∧ ∀ i, Memory.read t.buf i =
      if i < xlen s.cfg r.pixels then (frameBytes s.cfg pt (componentsOf s r))[i]? else Memory.read s.buf i := by
  refine ⟨_, h.step_eq, fun i => ?_⟩
  have hread := frameWritten_read { s with schedule := rest } pt r i
  have hcomps : componentsOf { s with schedule := rest } r = componentsOf s r := rfl
  rw [hcomps, frameBytes_length_xlen h.sizes.1 h.stream] at hread
  split <;> exact hread

/-- Settles O26: below `XLEN(n)` the buffer is the frame, whose bytes stand at the spec's offsets. -/
theorem encodedFrameLayout : Obligations.EncodedFrameLayout := by
  intro s pt r rest h
  obtain ⟨hsound, -⟩ := h.sizes
  have hcomps := componentsOf_length h.stream
  have hcontent : (componentsOf s r).length * 8 * s.cfg.n = content s.cfg r.pixels := by
    rw [hcomps, content, Nat.mul_comm 3]
  obtain ⟨t, hstep, hbuf⟩ := h.step_buf
  have hcell : ∀ {i v}, (frameBytes s.cfg pt (componentsOf s r))[i]? = some v → Memory.read t.buf i = some v := by
    intro i v hv
    have hi : i < xlen s.cfg r.pixels := by
      rw [← frameBytes_length_xlen hsound h.stream]
      exact (List.getElem?_eq_some_iff.mp hv).1
    rw [hbuf, if_pos hi, hv]
  refine ⟨t, hstep, fun i v hv => hcell (frameBytes_lead pt _ hv), fun p c b j comp _ _ hb hj hcomp => ?_,
    fun i v hv => ?_, fun i hi => ?_, hcomps⟩
  · have hj' : j < (pt.pick (comp.getLsbD b)).length := by rw [pick_length hsound]; exact hj
    have hbyte := List.getElem?_eq_getElem hj'
    exact (hcell (frameBytes_content hsound hcomp hb hbyte)).trans hbyte.symm
  · rw [← hcontent]
    exact hcell (frameBytes_trail hsound _ hv)
  · rw [hbuf, if_neg (by omega)]

end Sys2Proof.Machine
end

section
/-! PROOF. The register accesses that have a meaning (R60): exactly the four the spec defines. -/

namespace Sys2Proof.Machine

/-- The accesses R60 defines, at their window offset: a 32-bit write at 0x00, a 32-bit read at 0x04, 0x08 or 0x0C. -/
def definedAccess (a : Access) (offset : Nat) : Prop :=
  a.bits = 32 ∧
    ((a.kind = .write ∧ offset = 0x00) ∨ (a.kind = .read ∧ (offset = 0x04 ∨ offset = 0x08 ∨ offset = 0x0C)))

theorem windowOffset_below {c : Config} {addr : Nat} (h : addr < c.regBase) : windowOffset c addr = none :=
  if_neg (by omega)

theorem readableRegister_eq_none_iff {s : State} {offset : Nat} :
    readableRegister s offset = none ↔ ¬(offset = 0x04 ∨ offset = 0x08 ∨ offset = 0x0C) := by
  rw [readableRegister]
  split_ifs <;> simp_all

theorem accessRegister_refused_iff (s : State) (a : Access) (offset : Nat) :
    accessRegister s a offset = .refused .undefinedAccess ↔ ¬definedAccess a offset := by
  rw [accessRegister, definedAccess]
  by_cases hbits : a.bits = 32
  · rw [if_neg (not_not_intro hbits)]
    cases hk : a.kind with
    | write => by_cases ho : offset = 0x00 <;> simp [hbits, ho]
    | read =>
      cases hr : readableRegister s offset with
      | none => simpa [hbits] using readableRegister_eq_none_iff.mp hr
      | some v =>
        have hdef : offset = 0x04 ∨ offset = 0x08 ∨ offset = 0x0C :=
          not_not.mp fun hn => by simp [readableRegister_eq_none_iff.mpr hn] at hr
        simp [hbits, hdef]
  · simp [hbits]

/-- By platform address: an access below the window is no defined one either. -/
theorem hostEvent_refused_iff (s : State) (a : Access) :
    hostEvent s a = .refused .undefinedAccess ↔ ¬∃ offset, a.addr = s.cfg.regBase + offset ∧ definedAccess a offset := by
  rw [hostEvent]
  rcases Nat.lt_or_ge a.addr s.cfg.regBase with hlow | hin
  · rw [windowOffset_below hlow]
    simp only [true_iff]
    rintro ⟨offset, ha, -⟩
    omega
  · obtain ⟨offset, ha⟩ := Nat.exists_eq_add_of_le hin
    simp only [ha, windowOffset_base_add, accessRegister_refused_iff, Nat.add_left_cancel_iff, exists_eq_left']

/-- The four accesses with the window at `base`. -/
theorem exists_definedAccess_iff (base : Nat) (a : Access) :
    (∃ offset, a.addr = base + offset ∧ definedAccess a offset) ↔
      a.bits = 32 ∧
        ((a.kind = .write ∧ a.addr = base) ∨
          (a.kind = .read ∧ (a.addr = base + 0x04 ∨ a.addr = base + 0x08 ∨ a.addr = base + 0x0C))) := by
  constructor
  · rintro ⟨offset, ha, hbits, ⟨hk, ho⟩ | ⟨hk, ho⟩⟩
    · exact ⟨hbits, .inl ⟨hk, by omega⟩⟩
    · exact ⟨hbits, .inr ⟨hk, by omega⟩⟩
  · rintro ⟨hbits, ⟨hk, ha⟩ | ⟨hk, ha⟩⟩
    · exact ⟨0x00, ha, hbits, .inl ⟨hk, rfl⟩⟩
    · exact ⟨a.addr - base, by omega, hbits, .inr ⟨hk, by omega⟩⟩

/-- Settles O44: the host's event alone decides, and it refuses what is not one of the four accesses. -/
theorem onlyDefinedAccessesHaveMeaning : Obligations.OnlyDefinedAccessesHaveMeaning := by
  intro s a rest hc hs
  rw [step_event hc hs, ← exists_definedAccess_iff]
  exact hostEvent_refused_iff { s with schedule := rest } a

end Sys2Proof.Machine
end

section
/-! PROOF. The opcode table (R73): which words match a row, that a row's match fixes the opcode, and that the decoder is
the table read row by row. -/

namespace Sys2Proof

/-! ### Masks and matches -/

/-- Masking down to the low `n` bits leaves a value exactly when those bits have it. -/
theorem and_lowOnes_eq_iff {m n : Nat} (b : BitVec (m + n)) (p : BitVec n) :
    b &&& (BitVec.allOnes n).setWidth (m + n) = 0#m ++ p ↔ b.extractLsb' 0 n = p := by
  rw [BitVec.and_setWidth_allOnes, BitVec.setWidth_eq_extractLsb' (Nat.le_add_left n m)]
  refine ⟨fun h => ?_, fun h => by rw [h]⟩
  simpa only [BitVec.extractLsb'_append_eq_right] using congrArg (BitVec.extractLsb' 0 n) h

/-- The mask of a row with no operand is the whole word. -/
theorem and_wholeMask (w : Word) : w &&& 0xFFFFFFFF = w := BitVec.and_allOnes

/-- The mask of SHOW's row is the opcode. -/
theorem and_opMask_eq_iff (w : Word) : w &&& 0x0000000F = 0x00000002 ↔ opField w = 0x2 :=
  and_lowOnes_eq_iff (m := 28) (n := 4) w 0x2

/-- The mask of CLEAR's row is the opcode and SCALE. -/
theorem and_low12Mask_eq_iff (w : Word) : w &&& 0x00000FFF = 0x00000003 ↔ w.extractLsb' 0 12 = (0x003 : BitVec 12) :=
  and_lowOnes_eq_iff (m := 20) (n := 12) w 0x003

theorem OpcodeRow.matches_iff (r : OpcodeRow) (w : Word) : r.matches w = true ↔ w &&& r.mask = r.pattern := beq_iff_eq

theorem matches_init_iff (w : Word) : (opcodeRow .init).matches w = true ↔ w = 0x00000001 := by
  rw [OpcodeRow.matches_iff, opcodeRow, and_wholeMask]

theorem matches_showFrame_iff (n : BitVec 20) (x : BitVec 8) (w : Word) :
    (opcodeRow (.showFrame n x)).matches w = true ↔ opField w = 0x2 :=
  (OpcodeRow.matches_iff _ w).trans (and_opMask_eq_iff w)

theorem matches_clear_iff (n : BitVec 20) (w : Word) :
    (opcodeRow (.clear n)).matches w = true ↔ w.extractLsb' 0 12 = (0x003 : BitVec 12) :=
  (OpcodeRow.matches_iff _ w).trans (and_low12Mask_eq_iff w)

theorem matches_maxRate_iff (w : Word) : (opcodeRow .maxRate).matches w = true ↔ w = 0x00000004 := by
  rw [OpcodeRow.matches_iff, opcodeRow, and_wholeMask]

/-! ### A row's match fixes the opcode -/

/-- Every command's row is in the table. -/
theorem opcodeRow_mem (i : Instr) : opcodeRow i ∈ opcodeRows := by
  cases i <;> simp [opcodeRows, opcodeRow]

/-- A mask that keeps the opcode makes every word that matches have the row's opcode. -/
theorem OpcodeRow.opField_of_matches {r : OpcodeRow} {w : Word} (hmask : opField r.mask = BitVec.allOnes 4)
    (hw : r.matches w = true) : opField w = opField r.pattern := by
  have hand : opField (w &&& r.mask) = opField w &&& opField r.mask := BitVec.extractLsb'_and
  rw [← (r.matches_iff w).mp hw, hand, hmask, BitVec.and_allOnes]

/-- Every mask of the table keeps the opcode. -/
theorem opField_mask_of_mem : ∀ r ∈ opcodeRows, opField r.mask = BitVec.allOnes 4 := by decide

/-- The rows have different opcodes. -/
theorem opcodeRows_opcodes_pairwise : opcodeRows.Pairwise fun a b => opField a.pattern ≠ opField b.pattern := by decide

/-- A word has one opcode, so it matches at most one row. -/
theorem opcodeRows_matches_pairwise :
    opcodeRows.Pairwise fun a b => ∀ w : Word, ¬(a.matches w = true ∧ b.matches w = true) := by
  refine opcodeRows_opcodes_pairwise.imp_of_mem fun {a b} ha hb hne w ⟨hwa, hwb⟩ => hne ?_
  rw [← a.opField_of_matches (opField_mask_of_mem a ha) hwa, ← b.opField_of_matches (opField_mask_of_mem b hb) hwb]

/-- The opcode of a word that matches a command's row. -/
theorem opField_of_matches_opcodeRow {i : Instr} {w : Word} (h : (opcodeRow i).matches w = true) :
    opField w = opField (opcodeRow i).pattern :=
  OpcodeRow.opField_of_matches (opField_mask_of_mem _ (opcodeRow_mem i)) h

/-! ### The decoder reads the table -/

/-- The command's operands are the word's fields (R70). -/
def HasOperandsOf (w : Word) : Instr → Prop
  | .init => True
  | .showFrame nLeds scale => nLeds = nLedsField w ∧ scale = scaleField w
  | .clear nLeds => nLeds = nLedsField w
  | .maxRate => True

/-- A word that matches a row is not taken by an earlier line of the decoder: the opcode tells them apart. -/
theorem decode_of_matches {w : Word} {i : Instr} (hrow : (opcodeRow i).matches w = true) (hops : HasOperandsOf w i) :
    decode w = .ok i := by
  cases i with
  | init =>
    rw [(matches_init_iff w).mp hrow]
    rfl
  | showFrame n x =>
    obtain ⟨rfl, rfl⟩ := hops
    have hop : opField w = 0x2 := opField_of_matches_opcodeRow hrow
    have hinit : w ≠ 0x00000001 := by rintro rfl; exact absurd hop (by decide)
    rw [decode, if_neg hinit, if_pos hop]
  | clear n =>
    obtain rfl := hops
    have hop : opField w = 0x3 := opField_of_matches_opcodeRow hrow
    have hinit : w ≠ 0x00000001 := by rintro rfl; exact absurd hop (by decide)
    have hshow : opField w ≠ 0x2 := by rw [hop]; decide
    rw [decode, if_neg hinit, if_neg hshow, if_pos ((matches_clear_iff _ w).mp hrow)]
  | maxRate =>
    rw [(matches_maxRate_iff w).mp hrow]
    rfl

/-- Everything the decoder can answer: a command of the row the word matches, or a rejection where it matches none. -/
theorem decode_cases (w : Word) :
    (∃ i, decode w = .ok i ∧ (opcodeRow i).matches w = true ∧ HasOperandsOf w i) ∨
      ((∃ r, decode w = .error r) ∧ ∀ row ∈ opcodeRows, row.matches w = false) := by
  by_cases hinit : (opcodeRow .init).matches w = true
  · exact .inl ⟨_, decode_of_matches hinit trivial, hinit, trivial⟩
  by_cases hshow : (opcodeRow (.showFrame (nLedsField w) (scaleField w))).matches w = true
  · exact .inl ⟨_, decode_of_matches hshow ⟨rfl, rfl⟩, hshow, rfl, rfl⟩
  by_cases hclear : (opcodeRow (.clear (nLedsField w))).matches w = true
  · exact .inl ⟨_, decode_of_matches hclear rfl, hclear, rfl⟩
  by_cases hmax : (opcodeRow .maxRate).matches w = true
  · exact .inl ⟨_, decode_of_matches hmax trivial, hmax, trivial⟩
  refine .inr ⟨⟨rejectReason w, ?_⟩, ?_⟩
  · rw [decode, if_neg (mt (matches_init_iff w).mpr hinit), if_neg (mt (matches_showFrame_iff _ _ w).mpr hshow),
      if_neg (mt (matches_clear_iff _ w).mpr hclear), if_neg (mt (matches_maxRate_iff w).mpr hmax)]
  · simp only [opcodeRows, List.forall_mem_cons, Bool.eq_false_iff]
    exact ⟨hinit, hshow, hclear, hmax, List.forall_mem_nil _⟩

theorem decode_eq_ok_iff (w : Word) (i : Instr) :
    decode w = .ok i ↔ (opcodeRow i).matches w = true ∧ HasOperandsOf w i := by
  refine ⟨fun h => ?_, fun ⟨hrow, hops⟩ => decode_of_matches hrow hops⟩
  obtain ⟨j, hj, hrow⟩ | ⟨⟨r, hr⟩, -⟩ := decode_cases w
  · cases h.symm.trans hj
    exact hrow
  · cases h.symm.trans hr

theorem decode_eq_error_iff (w : Word) :
    (∃ r, decode w = .error r) ↔ ∀ row ∈ opcodeRows, row.matches w = false := by
  obtain ⟨i, hi, hrow, -⟩ | ⟨hr, hnone⟩ := decode_cases w
  · refine ⟨fun ⟨r, hr⟩ => ?_, fun hnone => ?_⟩
    · cases hi.symm.trans hr
    · exact absurd hrow (by simp [hnone _ (opcodeRow_mem i)])
  · exact iff_of_true hr hnone

/-- Settles O3: the decoder answers a command exactly for its row and fields, and a word's one opcode keeps the rows
apart. -/
theorem wordMatchesItsRow : Obligations.WordMatchesItsRow := by
  refine ⟨fun w => ?_, fun w n x => ?_, fun w n => ?_, fun w => ?_, opcodeRows_matches_pairwise, decode_eq_error_iff⟩
  · exact (decode_eq_ok_iff w _).trans ((and_iff_left trivial).trans (OpcodeRow.matches_iff _ w))
  · exact (decode_eq_ok_iff w _).trans (and_congr_left' (OpcodeRow.matches_iff _ w))
  · exact (decode_eq_ok_iff w _).trans (and_congr_left' (OpcodeRow.matches_iff _ w))
  · exact (decode_eq_ok_iff w _).trans ((and_iff_left trivial).trans (OpcodeRow.matches_iff _ w))

end Sys2Proof
end

section
/-! PROOF. Accepting a held word (R140): the step is the rule of the decoded word, and the rule of an illegal one (R74) is
its response alone. -/

namespace Sys2Proof.Machine

/-- The step of a state about to accept a word decodes it, releases it where the block is ready, and performs its rule. -/
theorem AboutToAccept.step_eq {s : State} {k : Nat} {w : Word} {rest : List Event} (h : AboutToAccept s k w rest) :
    step s = performCommand (decode w) (releaseHeld { s with schedule := rest } k (decode w)) := by
  rw [step_event h.config h.next]
  show blockStep { s with schedule := rest } (acceptCommand { s with schedule := rest } k) = _
  rw [blockStep_unmarked (by exact h.noFault), acceptCommand, h.held]

/-- Outside ENCODING and TRANSMITTING the block is ready for an illegal word (R140). -/
theorem ready_error {st : SeqState} (henc : st ≠ .encoding) (htx : st ≠ .transmitting) (r : Reject) :
    ready st (.error r) = true := by
  cases st with
  | encoding => exact absurd rfl henc
  | transmitting => exact absurd rfl htx
  | unconfigured | idle | cooldown | cfgError => rfl

/-- Settles O7: a word that matches no row decodes to a rejection, and an accepted rejection only responds. -/
theorem illegalWordOnlyResponds : Obligations.IllegalWordOnlyResponds := by
  intro s k w rest h hnone henc htx
  obtain ⟨r, hr⟩ := (decode_eq_error_iff w).mpr hnone
  have hready := ready_error henc htx r
  rw [h.step_eq, hr, releaseHeld_ready (by exact hready), performCommand, illegalCommand, whenReady_ready (by exact hready)]
  rfl

end Sys2Proof.Machine
end

section
/-! PROOF. The empty frame (R128): the registers after any ENCODING step, and what they and the buffer come to when there is
no pixel. -/

namespace Sys2Proof.Machine

/-! ### The registers after the ENCODING step -/

/-- The ENCODING step leaves the lengths of R127, the stream, and the position of R125, whether or not the frame has bytes
to hand over. -/
theorem AboutToEncode.step_registers {s t : State} {pt : PatternTable} {r : Request} {rest : List Event}
    (h : AboutToEncode s pt r rest) (ht : step s = .next t) :
    t.contentLen = BitVec.ofNat 32 (content s.cfg r.pixels) ∧ t.xferLen = BitVec.ofNat 32 (xlen s.cfg r.pixels) ∧
      t.stream = s.stream ∧ t.pos = posAfterFrame s r := by
  cases h.step_eq.symm.trans ht
  split <;> exact ⟨rfl, rfl, rfl, rfl⟩

/-- The transfer length of a frame about to be encoded fits its 32-bit register. -/
theorem AboutToEncode.xlen_toNat {s : State} {pt : PatternTable} {r : Request} {rest : List Event}
    (h : AboutToEncode s pt r rest) : (BitVec.ofNat 32 (xlen s.cfg r.pixels)).toNat = xlen s.cfg r.pixels := by
  obtain ⟨-, hfits, hsmall, -⟩ := h.sizes
  exact Nat.mod_eq_of_lt (by omega)

/-! ### A frame of no pixels -/

@[simp] theorem content_zero (c : Config) : content c 0 = 0 := by simp [content]

@[simp] theorem xlen_zero (c : Config) : xlen c 0 = framing c := by simp [xlen, framing]

@[simp] theorem frameBytes_nil (c : Config) (pt : PatternTable) : frameBytes c pt [] = c.lead ++ c.trail := by
  simp [frameBytes]

theorem componentsOf_noPixels (s : State) {r : Request} (h0 : r.pixels = 0) : componentsOf s r = [] := by
  cases hk : r.kind <;> simp [componentsOf, hk, h0]

theorem posAfterFrame_noPixels (s : State) {r : Request} (h0 : r.pixels = 0) : posAfterFrame s r = s.pos := by
  cases hk : r.kind <;> simp [posAfterFrame, hk, h0]

/-- Settles O28: with no pixel the frame's bytes are the framing bytes, and its lengths and position follow. -/
theorem emptyFrameIsOnlyFraming : Obligations.EmptyFrameIsOnlyFraming := by
  intro s pt r rest h h0
  obtain ⟨t, hstep, hbuf⟩ := h.step_buf
  obtain ⟨hcontent, hxfer, hstream, hpos⟩ := h.step_registers hstep
  have hlen := h.xlen_toNat
  rw [componentsOf_noPixels s h0, frameBytes_nil, h0, xlen_zero] at hbuf
  rw [h0, xlen_zero] at hxfer hlen
  rw [h0, content_zero] at hcontent
  rw [posAfterFrame_noPixels s h0] at hpos
  refine ⟨t, hstep, fun i hi => ?_, fun i hi => ?_, hcontent, ?_, hstream, hpos⟩
  · rw [hbuf, if_pos hi]
  · rw [hbuf, if_neg (Nat.not_lt.mpr hi)]
  · rw [hxfer, hlen]

end Sys2Proof.Machine
end

section
/-! PROOF. The rejections of a command before anything is written (42_transfer_sequencer.md): the gates of R141 and R144
passed one after the other, whatever the command's rule behind them. -/

namespace Sys2Proof.Machine

/-! ### The gates in sequence -/

/-- An unusable block is ready for every command, so the usability gate answers for any rule behind it (R140, R141). -/
theorem whenReady_whenUsable_unusable {s : State} (h : s.st = .unconfigured ∨ s.st = .cfgError) (d : Decoded)
    (rule : State → Answer) :
    whenReady s d (fun s => whenUsable s rule) = .next (raiseError s .unusable) := by
  have hready : s.st.readyBit = true := readyBit_iff.mpr (h.imp_right .inr)
  rw [whenReady_ready (ready_of_readyBit hready d), whenUsable_unusable h]

/-- An idle block is ready and usable, so the overrun gate answers for any rule behind it (R140, R144). -/
theorem whenReady_whenUsable_overrun {s : State} (h : s.st = .idle) {n : BitVec 20} (hn : s.cfg.maxLeds < n.toNat)
    (d : Decoded) (rule : State → Answer) :
    whenReady s d (fun s => whenUsable s fun s => whenFits s n rule) = .next (raiseError s .overrun) := by
  have hready : s.st.readyBit = true := readyBit_iff.mpr (.inr (.inl h))
  have husable : s.st.usable = true := by rw [h]; rfl
  rw [whenReady_ready (ready_of_readyBit hready d), whenUsable_usable husable, whenFits_overrun hn]

/-! ### The commands behind them -/

/-- Settles O9: every command but INIT stands behind the usability gate. -/
theorem unusableBlockOnlyResponds : Obligations.UnusableBlockOnlyResponds := by
  intro s i h hi
  cases i with
  | init => exact absurd rfl hi
  | showFrame nLeds scale => exact whenReady_whenUsable_unusable h (.ok (.showFrame nLeds scale)) _
  | clear nLeds => exact whenReady_whenUsable_unusable h (.ok (.clear nLeds)) _
  | maxRate => exact whenReady_whenUsable_unusable h (.ok .maxRate) _

/-- Settles O18: SHOW and CLEAR both stand behind the overrun gate, which an idle block reaches. -/
theorem overrunIsRejected : Obligations.OverrunIsRejected := fun _ nLeds scale h hn =>
  ⟨whenReady_whenUsable_overrun h hn (.ok (.showFrame nLeds scale)) _,
    whenReady_whenUsable_overrun h hn (.ok (.clear nLeds)) _⟩

end Sys2Proof.Machine
end

section
/-! PROOF. The frame of no bytes (R148): when a frame has none, and what the ENCODING step of one leaves. -/

namespace Sys2Proof.Machine

/-- A frame has no bytes only with no framing and no pixel, because a pattern has at least one byte (R10). -/
theorem xlen_eq_zero_iff {c : Config} (hn : 1 ≤ c.n) (n : Nat) :
    xlen c n = 0 ↔ c.lead = [] ∧ c.trail = [] ∧ n = 0 := by
  have hne : c.n ≠ 0 := by omega
  simp [xlen, content, hne, and_assoc, and_comm (a := n = 0)]

/-- Writing a frame of no bytes touches neither the buffer nor the stream position: only the lengths are set. -/
theorem frameWritten_noBytes {s : State} (pt : PatternTable) {r : Request} (hlead : s.cfg.lead = [])
    (htrail : s.cfg.trail = []) (h0 : r.pixels = 0) :
    frameWritten s pt r = { s with contentLen := 0, xferLen := 0 } := by
  have hxlen : xlen s.cfg 0 = 0 := by simp [framing, hlead, htrail]
  simp [frameWritten, componentsOf_noPixels s h0, posAfterFrame_noPixels s h0, h0, hxlen, hlead, htrail]

/-- Settles O37: an empty frame leaves the state as it was but for the lengths, and the empty frame's end does the rest. -/
theorem zeroLengthFrameFinishesAtOnce : Obligations.ZeroLengthFrameFinishesAtOnce := by
  intro s pt r rest h hx
  obtain ⟨-, -, -, hn⟩ := h.sizes
  obtain ⟨hlead, htrail, h0⟩ := (xlen_eq_zero_iff hn _).mp hx
  refine ⟨hlead, htrail, h0, ?_⟩
  rw [h.step_eq, if_pos hx, frameWritten_noBytes pt (by exact hlead) (by exact htrail) h0]
  rfl

end Sys2Proof.Machine
end

section
/-! PROOF. The silent peripheral (R152): in TRANSMITTING no event but the peripheral's signal and reset reaches a register
of the block, and CMD only gains words, so a run with neither leaves the block waiting and its held words held. -/

namespace Sys2Proof.Machine

/-- No signal of the peripheral and no reset is to come. -/
def SilentSchedule (s : State) : Prop := ∀ e ∈ s.schedule, e.ofPeripheral = false ∧ e ≠ .reset

/-- From `s` to `t` only agents outside the block acted: the host wrote words that are held behind the ones before or read
a register, the color layer settled a stream, the clock advanced; the events still to come are among those of `s`. -/
def OnlyOthersActed (s t : State) : Prop :=
  ∃ (later : List Word) (readData : Option Word) (offer : List Byte) (now : Nat) (rest : List Event),
    rest ⊆ s.schedule ∧
    t = { s with held := s.held ++ later, readData := readData, offer := offer, now := now, schedule := rest }

theorem OnlyOthersActed.refl (s : State) : OnlyOthersActed s s :=
  ⟨[], s.readData, s.offer, s.now, s.schedule, fun _ h => h, by rw [List.append_nil]⟩

theorem OnlyOthersActed.trans {s t u : State} (hst : OnlyOthersActed s t) (htu : OnlyOthersActed t u) :
    OnlyOthersActed s u := by
  obtain ⟨later, _, _, _, rest, hrest, rfl⟩ := hst
  obtain ⟨later', readData, offer, now, rest', hrest', rfl⟩ := htu
  exact ⟨later ++ later', readData, offer, now, rest', fun _ h => hrest (hrest' h), by simp only [List.append_assoc]⟩

theorem OnlyOthersActed.st_eq {s t : State} (h : OnlyOthersActed s t) : t.st = s.st := by
  obtain ⟨_, _, _, _, _, -, rfl⟩ := h
  rfl

theorem OnlyOthersActed.silent {s t : State} (h : OnlyOthersActed s t) (hs : SilentSchedule s) : SilentSchedule t := by
  obtain ⟨_, _, _, _, rest, hrest, rfl⟩ := h
  exact fun e he => hs e (hrest he)

/-- An acceptance in TRANSMITTING changes nothing: the block is ready for no word (R140). -/
theorem AcceptEffect.eq_of_transmitting {k : Nat} {s t : State} (h : AcceptEffect k s t) (hst : s.st = .transmitting) :
    t = s := by
  have hbusy := not_ready_busy (.inr hst)
  cases h with
  | held => rfl
  | illegal w hw r hd hr => exact absurd hr (by simp [hbusy])
  | command w hw i hd hr t ht => exact absurd hr (by simp [hbusy])

/-- In TRANSMITTING an event that is neither the peripheral's signal nor reset is an act of another agent, or is not
enabled. -/
theorem EventEffect.onlyOthersActed_of_silent {e : Event} {s t : State} (h : EventEffect s e t)
    (hst : s.st = .transmitting) (hp : e.ofPeripheral = false) (hr : e ≠ .reset) : OnlyOthersActed s t := by
  have hsame := OnlyOthersActed.refl s
  cases h with
  | written a => exact ⟨[a.data], s.readData, s.offer, s.now, s.schedule, fun _ h => h, rfl⟩
  | read a v => exact ⟨[], some v, s.offer, s.now, s.schedule, fun _ h => h, by rw [List.append_nil]⟩
  | offered stream => exact ⟨[], s.readData, stream, s.now, s.schedule, fun _ h => h, by rw [List.append_nil]⟩
  | clock ticks =>
    exact ⟨[], s.readData, s.offer, s.now + ticks, s.schedule, fun _ h => h, by rw [List.append_nil]; rfl⟩
  | accept k t hf h => rwa [h.eq_of_transmitting hst]
  | cooldownNotEnabled | encodeNotEnabled => exact hsame
  | cooldownOver hf hcool => rw [hst] at hcool; cases hcool
  | encoded t hf henc => rw [hst] at henc; cases henc
  | done | doneIgnored | failed | failedIgnored => cases hp
  | reset => exact absurd rfl hr

/-- One step in TRANSMITTING under a silent schedule. -/
theorem step_onlyOthersActed {s t : State} (hst : s.st = .transmitting) (hs : SilentSchedule s) (h : step s = .next t) :
    OnlyOthersActed s t := by
  obtain ⟨-, ⟨-, rfl⟩ | ⟨e, rest, hsched, heffect⟩⟩ := step_cases h
  · exact OnlyOthersActed.refl t
  · obtain ⟨hp, hr⟩ := hs e (by simp [hsched])
    have htaken : OnlyOthersActed s { s with schedule := rest } :=
      ⟨[], s.readData, s.offer, s.now, rest, by simp [hsched], by rw [List.append_nil]⟩
    exact htaken.trans (heffect.onlyOthersActed_of_silent hst hp hr)

/-- A whole run in TRANSMITTING under a silent schedule, by induction on its steps. -/
theorem runSteps_onlyOthersActed {k : Nat} {s t : State} (hst : s.st = .transmitting) (hs : SilentSchedule s)
    (h : runSteps k s = .next t) : OnlyOthersActed s t := by
  induction k generalizing s with
  | zero =>
    rw [runSteps_zero h]
    exact OnlyOthersActed.refl s
  | succ k ih =>
    obtain ⟨u, hstep, hrun⟩ := runSteps_succ h
    have hsu := step_onlyOthersActed hst hs hstep
    exact hsu.trans (ih (hsu.st_eq.trans hst) (hsu.silent hs) hrun)

/-- Settles O59: what the other agents do in a silent run leaves every register the statement names as it was. -/
theorem silentPeripheralHoldsEverything : Obligations.SilentPeripheralHoldsEverything := by
  intro s t k hst hs hrun
  obtain ⟨later, _, _, _, _, -, rfl⟩ := runSteps_onlyOthersActed hst hs hrun
  exact ⟨hst, rfl, rfl, rfl, rfl, later, rfl⟩

end Sys2Proof.Machine
end

section
/-! PROOF. The encoder against the decoder (R76, R77): the word of a command lies in the command's row with the command's
operands, and it is the only word that does. -/

namespace Sys2Proof

/-- The word of a command lies in the command's row (R73). -/
theorem matches_encode (i : Instr) : (opcodeRow i).matches (encode i) = true := by
  cases i with
  | init => exact (matches_init_iff _).mpr rfl
  | showFrame nLeds scale => exact (matches_showFrame_iff nLeds scale _).mpr (opField_formatC nLeds scale 0x2)
  | clear nLeds =>
    refine (matches_clear_iff nLeds _).mpr ?_
    rw [low12_fields, encode, scaleField_formatC, opField_formatC]
    rfl
  | maxRate => exact (matches_maxRate_iff _).mpr rfl

/-- The operand fields of a command's word hold the command's operands (R70). -/
theorem hasOperandsOf_encode (i : Instr) : HasOperandsOf (encode i) i := by
  cases i with
  | init => trivial
  | showFrame nLeds scale => exact ⟨(nLedsField_formatC _ _ _).symm, (scaleField_formatC _ _ _).symm⟩
  | clear nLeds => exact (nLedsField_formatC _ _ _).symm
  | maxRate => trivial

/-- The row of a command and its operands leave no bit of the word undetermined. -/
theorem eq_encode_of_matches {w : Word} {i : Instr} (hrow : (opcodeRow i).matches w = true) (hops : HasOperandsOf w i) :
    w = encode i := by
  cases i with
  | init => exact (matches_init_iff w).mp hrow
  | showFrame nLeds scale =>
    obtain ⟨hn, hx⟩ := hops
    exact (eq_formatC_iff w nLeds scale 0x2).mpr ⟨hn.symm, hx.symm, (matches_showFrame_iff nLeds scale w).mp hrow⟩
  | clear nLeds =>
    have hlow : scaleField w ++ opField w = (0 : BitVec 8) ++ (0x3 : BitVec 4) :=
      (low12_fields w).symm.trans ((matches_clear_iff nLeds w).mp hrow)
    have hscale := congrArg (BitVec.extractLsb' 4 8) hlow
    have hop := congrArg (BitVec.extractLsb' 0 4) hlow
    rw [BitVec.extractLsb'_append_eq_left, BitVec.extractLsb'_append_eq_left] at hscale
    rw [BitVec.extractLsb'_append_eq_right, BitVec.extractLsb'_append_eq_right] at hop
    exact (eq_formatC_iff w nLeds 0 0x3).mpr ⟨Eq.symm hops, hscale, hop⟩
  | maxRate => exact (matches_maxRate_iff w).mp hrow

/-- Settles O1: the decoder takes a word in a command's row with its operands for the command. -/
theorem decodeOfEncode : Obligations.DecodeOfEncode := fun i =>
  decode_of_matches (matches_encode i) (hasOperandsOf_encode i)

/-- Settles O2: a word that decodes to a command lies in its row with its operands, as only the command's word does. -/
theorem encodeOfDecode : Obligations.EncodeOfDecode := fun w i h =>
  let ⟨hrow, hops⟩ := (decode_eq_ok_iff w i).mp h
  (eq_encode_of_matches hrow hops).symm

/-- Settles O4: the table's words are closed, and the decoder is run on each. -/
theorem specWordsDecode : Obligations.SpecWordsDecode := by
  refine ⟨rfl, rfl, rfl, rfl, rfl, rfl, rfl, rfl, rfl, rfl, rfl, fun w hw => ?_⟩
  fin_cases hw
  all_goals exact ⟨_, rfl⟩

end Sys2Proof
end

section
/-! PROOF. High times on the line (R101, R56, R247): the high bits of a pattern are the high bits of its wire order, and a
transfer holds eight bits a byte. -/

namespace Sys2Proof.Machine

/-- A byte's wire order is its bits from the least significant up, turned round. -/
theorem wireBitsOfByte_eq_reverse (v : Byte) : wireBitsOfByte v = ((List.range 8).map v.getLsbD).reverse := rfl

/-- The high bits of a byte are those of its wire order. -/
theorem popcountByte_eq_count (v : Byte) : popcountByte v = (wireBitsOfByte v).count true := by
  rw [wireBitsOfByte_eq_reverse, List.count_reverse, List.count, List.countP_map, popcountByte]
  congr 1
  funext b
  simp

/-- The high bits of a list of bytes are those of its wire order. -/
theorem popcount_eq_count (bytes : List Byte) : popcount bytes = (wireBits bytes).count true := by
  rw [popcount, wireBits, List.count_flatMap]
  exact congrArg List.sum (List.map_congr_left fun v _ => popcountByte_eq_count v)

/-- Settles O48: the high bits counted in a pattern are the high bits the line shows. -/
theorem highTimeIsTimeOnTheLine : Obligations.HighTimeIsTimeOnTheLine :=
  ⟨fun period pat => by rw [highTime, popcount_eq_count],
    fun period bytes => by rw [wireTime, wireBits_length, Nat.mul_comm 8]⟩

end Sys2Proof.Machine
end

section
/-! PROOF. Derived patterns (R103, R104): the wire order of `patOf(k)`, the count the build takes, and what a successful
build and a successful INIT give. -/

namespace Sys2Proof.Machine

/-! ### The shape of a derived pattern -/

/-- Byte `j` of `patOf(k)` is high in its first bits on the wire and low in the rest. -/
theorem wireBitsOfByte_patByte (k j : Nat) :
    wireBitsOfByte (patByte k j) =
      List.replicate (highBitsInByte k j) true ++ List.replicate (8 - highBitsInByte k j) false := by
  have shape : ∀ h < 9,
      wireBitsOfByte ((0xFF : Byte) <<< (8 - h)) = List.replicate h true ++ List.replicate (8 - h) false := by decide
  exact shape _ (Nat.lt_succ_of_le (Nat.min_le_left 8 _))

theorem patOf_succ (n k : Nat) : patOf (n + 1) k = patOf n k ++ [patByte k n] := by
  simp [patOf, List.range_succ]

/-- The wire order of a derived pattern, for any count: the high bits that have room come first. -/
theorem wireBits_patOf (n k : Nat) :
    wireBits (patOf n k) = List.replicate (min k (8 * n)) true ++ List.replicate (8 * n - k) false := by
  induction n with
  | zero => simp [patOf, wireBits]
  | succ n ih =>
    have hwire : wireBits (patOf (n + 1) k) = wireBits (patOf n k) ++ wireBitsOfByte (patByte k n) := by
      simp [patOf_succ, wireBits]
    rw [hwire, ih, wireBitsOfByte_patByte, highBitsInByte]
    rcases Nat.le_total k (8 * n) with h | h
    · rw [show min 8 (k - 8 * n) = 0 by omega, show min k (8 * (n + 1)) = min k (8 * n) by omega,
        show 8 * (n + 1) - k = 8 * n - k + (8 - 0) by omega, ← List.replicate_append_replicate (n := 8 * n - k),
        List.append_assoc]
      rfl
    · rw [show 8 * n - k = 0 by omega, show min k (8 * (n + 1)) = min k (8 * n) + min 8 (k - 8 * n) by omega,
        show 8 - min 8 (k - 8 * n) = 8 * (n + 1) - k by omega, ← List.replicate_append_replicate, List.append_assoc,
        List.append_assoc]
      rfl

theorem popcount_patOf {n k : Nat} (hk : k ≤ 8 * n) : popcount (patOf n k) = k := by
  rw [popcount_eq_count, wireBits_patOf, Nat.min_eq_left hk]
  simp [List.count_replicate]

@[simp] theorem patOf_length (n k : Nat) : (patOf n k).length = n := by simp [patOf]

/-! ### The nearest count -/

/-- The count before the clamp: the whole periods of the target or one more, whichever is nearer, and no more than `m`. -/
theorem nearestCount_cases (m period target : Nat) :
    (m ≤ target / period ∧ nearestCount m period target = m) ∨
      (target / period < m ∧ target - target / period * period ≤ (target / period + 1) * period - target ∧
        nearestCount m period target = target / period) ∨
      (target / period < m ∧ (target / period + 1) * period - target < target - target / period * period ∧
        nearestCount m period target = target / period + 1) := by
  rcases Nat.lt_or_ge (target / period) m with hlt | hge
  · by_cases hnear : target - target / period * period ≤ (target / period + 1) * period - target
    · exact .inr (.inl ⟨hlt, hnear, by rw [nearestCount, if_neg (Nat.not_le.mpr hlt), if_pos hnear]⟩)
    · exact .inr (.inr ⟨hlt, Nat.not_le.mp hnear, by rw [nearestCount, if_neg (Nat.not_le.mpr hlt), if_neg hnear]⟩)
  · exact .inl ⟨hge, if_pos hge⟩

/-- Which count the build takes: at or below the whole periods of the target where the target is no nearer to the next
one or the range ends, one above them where it is nearer or the range begins. -/
theorem kOf_cases {n : Nat} (hn : 1 ≤ n) (period target : Nat) :
    1 ≤ kOf n period target ∧ kOf n period target ≤ 8 * n - 1 ∧
      ((kOf n period target ≤ target / period ∧
          (kOf n period target = 8 * n - 1 ∨
            kOf n period target = target / period ∧
              target - target / period * period ≤ (target / period + 1) * period - target)) ∨
        (kOf n period target = target / period + 1 ∧
          (target / period = 0 ∨
            (target / period + 1) * period - target < target - target / period * period))) := by
  have hnear := nearestCount_cases (bitPositions n) period target
  simp only [kOf]
  generalize nearestCount (bitPositions n) period target = nearest at hnear ⊢
  generalize target - target / period * period = below at hnear ⊢
  generalize (target / period + 1) * period - target = above at hnear ⊢
  generalize target / period = q at hnear ⊢
  simp only [bitPositions] at hnear ⊢
  refine ⟨by omega, by omega, ?_⟩
  rcases hnear with h | h | h
  · omega
  · omega
  · omega

theorem kOf_le (n period target : Nat) : kOf n period target ≤ 8 * n :=
  (Nat.min_le_left _ _).trans (Nat.sub_le _ _)

/-- Settles O15: below the target a larger count is nearer, above it a smaller one, and the nearest on either side of it are
compared by the build. -/
theorem nearestCountHasLeastError : Obligations.NearestCountHasLeastError := by
  intro n period target k hn hp hk1 hk
  obtain ⟨hlow, hhigh, hcases⟩ := kOf_cases hn period target
  refine ⟨hlow, hhigh, ?_⟩
  have hfloor : target / period * period ≤ target := Nat.div_mul_le_self _ _
  have hceil : target < (target / period + 1) * period := Nat.lt_mul_of_div_lt (Nat.lt_succ_self _) hp
  generalize kOf n period target = g at *
  generalize target / period = q at *
  have hmono : ∀ {a b : Nat}, a ≤ b → a * period ≤ b * period := fun h => Nat.mul_le_mul_right period h
  have hstrict : ∀ {a b : Nat}, a < b → a * period < b * period := fun h => Nat.mul_lt_mul_of_pos_right h hp
  simp only [natDist]
  obtain ⟨hgq, hg⟩ | ⟨rfl, hg⟩ := hcases
  · have hgT := hmono hgq
    rcases Nat.lt_trichotomy k g with h | rfl | h
    · have := hstrict h
      split_ifs <;> omega
    · exact ⟨le_rfl, fun _ => le_rfl⟩
    · obtain rfl | ⟨rfl, hnear⟩ := hg
      · omega
      · have := hmono (show g + 1 ≤ k from h)
        split_ifs <;> omega
  · rcases Nat.lt_trichotomy k (q + 1) with h | rfl | h
    · obtain rfl | hnear := hg
      · omega
      · have := hmono (Nat.lt_succ_iff.mp h)
        split_ifs <;> omega
    · exact ⟨le_rfl, fun _ => le_rfl⟩
    · have := hstrict h
      split_ifs <;> omega

/-! ### What a successful build gives -/

/-- A build succeeds exactly with the derived patterns of the two counts, both on target and ONE's the larger. -/
theorem build_eq_some_iff {c : Config} {pt : PatternTable} :
    build c = some pt ↔
      (natDist (kOf c.n c.bitPeriod c.tHighOne * c.bitPeriod) c.tHighOne ≤ c.tol ∧
        natDist (kOf c.n c.bitPeriod c.tHighZero * c.bitPeriod) c.tHighZero ≤ c.tol ∧
        kOf c.n c.bitPeriod c.tHighZero < kOf c.n c.bitPeriod c.tHighOne) ∧
      pt = { one := patOf c.n (kOf c.n c.bitPeriod c.tHighOne), zero := patOf c.n (kOf c.n c.bitPeriod c.tHighZero) } := by
  rw [build, Option.ite_none_right_eq_some, Option.some_inj, eq_comm (b := pt)]

/-- Settles O14: a derived pattern's wire order is known, so its high bits are its count, which the build checks. -/
theorem derivedPatternShape : Obligations.DerivedPatternShape := by
  refine ⟨fun n k hk => ⟨popcount_patOf hk, ?_⟩, fun c pt _ h => ?_⟩
  · rw [wireBits_patOf, Nat.min_eq_left hk]
  · obtain ⟨⟨hone, hzero, hlt⟩, rfl⟩ := build_eq_some_iff.mp h
    have hpop : ∀ target, popcount (patOf c.n (kOf c.n c.bitPeriod target)) = kOf c.n c.bitPeriod target :=
      fun target => popcount_patOf (kOf_le _ _ _)
    simp only [highTime, hpop]
    exact ⟨trivial, trivial, hlt, hone, hzero⟩

theorem constPatterns_eq_some_iff {c : Config} {pt : PatternTable} :
    constPatterns c = some pt ↔
      popcount c.zeroConst < popcount c.oneConst ∧ pt = { one := c.oneConst, zero := c.zeroConst } := by
  rw [constPatterns, Option.ite_none_right_eq_some, Option.some_inj, eq_comm (b := pt)]

/-- The patterns a well-formed configuration gives INIT satisfy R24. -/
theorem patternsSound_of_initPatterns {c : Config} {pt : PatternTable} (hc : c.wellFormed = true)
    (h : initPatterns c = some pt) : patternsSound c pt := by
  obtain ⟨-, hconst, -, -⟩ := c.wellFormed_iff.mp hc
  cases hmode : c.patMode with
  | const =>
    rw [initPatterns, hmode] at h
    obtain ⟨hlt, rfl⟩ := constPatterns_eq_some_iff.mp h
    obtain ⟨hone, hzero⟩ := hconst hmode
    exact ⟨hone, hzero, hlt⟩
  | derive =>
    rw [initPatterns, hmode] at h
    obtain ⟨⟨-, -, hlt⟩, rfl⟩ := build_eq_some_iff.mp h
    refine ⟨patOf_length _ _, patOf_length _ _, ?_⟩
    rwa [popcount_patOf (kOf_le _ _ _), popcount_patOf (kOf_le _ _ _)]

end Sys2Proof.Machine
end

section
/-! PROOF. Frame sizes (R9, R51): a smaller count has a smaller frame, and a usable block has room for every count it
accepts. -/

namespace Sys2Proof.Machine

theorem xlen_mono (c : Config) {m n : Nat} (h : m ≤ n) : xlen c m ≤ xlen c n := by
  unfold xlen content
  gcongr

/-- Settles O19: the largest accepted frame is the one INIT made sure of. -/
theorem acceptedFrameFitsTheBuffer : Obligations.AcceptedFrameFitsTheBuffer := fun s _ h husable hn =>
  let ⟨_, _, _, hsmall⟩ := s.cfg.wellFormed_iff.mp h.config
  ⟨xlen_mono s.cfg hn, h.capacity husable, hsmall⟩

/-- The frame of a usable block's request fits the buffer. -/
theorem Inv.request_fits {s : State} {r : Request} (h : Inv s) (husable : s.st.usable = true) (hr : s.req = some r) :
    xlen s.cfg r.pixels ≤ s.cfg.bufBytes :=
  let ⟨hxlen, hcap, _⟩ := acceptedFrameFitsTheBuffer s r.pixels h husable (h.fits r hr)
  hxlen.trans hcap

end Sys2Proof.Machine
end

section
/-! PROOF. The ENCODING step under the invariant (R120, R124): it has a table and a request, and its frame is either written
whole or cut short at the pixel the stream is short for. -/

namespace Sys2Proof.Machine

/-! ### A frame whose stream is short -/

/-- The writes of a frame whose stream is short: the leading framing and the pixels before the short one, which lie within
the whole frame. -/
theorem encodeFrame_short {c : Config} {pt : PatternTable} {r : Request} {stream : List Byte} {pos : Nat} (buf : Memory)
    (hp : patternsSound c pt) (hkind : r.kind = .showFrame) (hshort : stream.length - pos < 3 * r.pixels) :
    ∃ bytes pos', bytes.length ≤ xlen c r.pixels ∧
      encodeFrame c pt r stream pos buf =
        ({ putBytes { buf := buf, cur := 0, pos := pos } bytes with pos := pos' }, some ((stream.length - pos) / 3)) := by
  obtain ⟨pos', _, hrun, rfl⟩ :=
    encodePixels_short pt stream r.pixels 0 (putBytes { buf := buf, cur := 0, pos := pos } c.lead) (by simpa using hshort)
  refine ⟨c.lead ++ ((stream.drop pos).take (3 * ((stream.length - pos) / 3))).flatMap (componentBytes pt), pos', ?_, ?_⟩
  · have hread : ((stream.drop pos).take (3 * ((stream.length - pos) / 3))).length ≤ 3 * r.pixels := by
      rw [List.length_take]
      omega
    have hcontent := Nat.mul_le_mul_right (8 * c.n) hread
    have hwhole : 3 * r.pixels * (8 * c.n) = content c r.pixels := by rw [content]; ring
    rw [List.length_append, componentsBytes_length hp, xlen]
    omega
  · simp only [encodeFrame, hkind, hrun, putBytes_append, putBytes_pos, Nat.zero_add]

/-- The state after an ENCODING step that was short of its stream at pixel `p`: these bytes written from offset 0, the
stream read up to `pos`, and the mark (R124). -/
def frameCutShort (s : State) (bytes : List Byte) (pos p : Nat) : State :=
  { s with
    buf := (putBytes { buf := s.buf, cur := 0, pos := s.pos } bytes).buf
    pos := pos
    fault := some (.streamUnderrun p) }

/-- The ENCODING step of a SHOW frame whose stream is short. -/
theorem encodeStep_short {s : State} {pt : PatternTable} {r : Request} (hpt : s.pt = some pt) (hr : s.req = some r)
    (hp : patternsSound s.cfg pt) (hkind : r.kind = .showFrame) (hshort : s.stream.length - s.pos < 3 * r.pixels)
    (hx : xlen s.cfg r.pixels ≤ s.cfg.bufBytes) :
    ∃ bytes pos, bytes.length ≤ xlen s.cfg r.pixels ∧
      encodeStep s = .next (frameCutShort s bytes pos ((s.stream.length - s.pos) / 3)) := by
  obtain ⟨bytes, pos, hlen, hframe⟩ := encodeFrame_short s.buf hp hkind hshort
  refine ⟨bytes, pos, hlen, ?_⟩
  rw [encodeStep, hpt, hr]
  simp only [if_neg (Nat.not_lt.mpr hx), hframe, writeFrame]
  rw [frameCutShort, hpt, hr]

/-! ### Either way -/

/-- In ENCODING the invariant provides the table and the request (R23, R27). -/
theorem Inv.encoding_registers {s : State} (h : Inv s) (hst : s.st = .encoding) :
    ∃ pt r, s.pt = some pt ∧ s.req = some r := by
  have htable : s.pt.isSome = true := by rw [h.table, hst]; rfl
  obtain ⟨pt, hpt⟩ := Option.isSome_iff_exists.mp htable
  obtain ⟨r, hr⟩ := Option.isSome_iff_exists.mp (h.requested hst)
  exact ⟨pt, r, hpt, hr⟩

/-- The next event of a state in ENCODING with no mark runs the encoder. -/
theorem step_encode {s : State} {rest : List Event} (hc : s.cfg.wellFormed = true) (hf : s.fault = none)
    (hst : s.st = .encoding) (hs : s.schedule = .encode :: rest) : step s = encodeStep { s with schedule := rest } := by
  rw [step_event hc hs]
  show encodeEvent { s with schedule := rest } = _
  rw [encodeEvent, blockStep_unmarked (by exact hf), if_pos (by exact hst)]

/-- The ENCODING step of a state with the invariant whose SHOW frame is short of its stream. -/
theorem Inv.step_short {s : State} {r : Request} {rest : List Event} (h : Inv s) (hf : s.fault = none)
    (hst : s.st = .encoding) (hr : s.req = some r) (hs : s.schedule = .encode :: rest) (hkind : r.kind = .showFrame)
    (hshort : s.stream.length - s.pos < 3 * r.pixels) :
    ∃ bytes pos, bytes.length ≤ s.cfg.bufBytes ∧
      step s = .next (frameCutShort { s with schedule := rest } bytes pos ((s.stream.length - s.pos) / 3)) := by
  obtain ⟨pt, -, hpt, -⟩ := h.encoding_registers hst
  have hfits := h.request_fits (by rw [hst]; rfl) hr
  obtain ⟨bytes, pos, hlen, hstep⟩ :=
    encodeStep_short (s := { s with schedule := rest }) hpt hr (h.sound pt hpt) hkind hshort hfits
  exact ⟨bytes, pos, hlen.trans hfits, by rw [step_encode h.config hf hst hs, hstep]⟩

/-- The ENCODING step of a state with the invariant and no mark: its premises hold, or it is cut short. -/
theorem Inv.encode_cases {s : State} {rest : List Event} (h : Inv s) (hf : s.fault = none) (hst : s.st = .encoding)
    (hs : s.schedule = .encode :: rest) :
    (∃ pt r, AboutToEncode s pt r rest) ∨
      ∃ bytes pos p, bytes.length ≤ s.cfg.bufBytes ∧
        step s = .next (frameCutShort { s with schedule := rest } bytes pos p) := by
  obtain ⟨pt, r, hpt, hr⟩ := h.encoding_registers hst
  by_cases hstream : streamSuffices s r
  · exact .inl ⟨pt, r, h, hf, hst, hpt, hr, hstream, hs⟩
  · obtain ⟨hkind, hshort⟩ := Classical.not_imp.mp hstream
    obtain ⟨bytes, pos, hlen, hstep⟩ := h.step_short hf hst hr hs hkind (Nat.not_le.mp hshort)
    exact .inr ⟨bytes, pos, _, hlen, hstep⟩

/-- Settles O34: the stream of a frame about to be encoded is read from its start, so the short pixel is the number of whole
pixels in it. -/
theorem shortStreamRaisesTheMark : Obligations.ShortStreamRaisesTheMark := by
  intro s r rest h hf hst hr hs hkind hshort
  have hpos : s.pos = 0 := h.fresh hst hf r hr hkind
  obtain ⟨bytes, pos, -, hstep⟩ := h.step_short hf hst hr hs hkind (by rw [hpos]; exact hshort)
  exact ⟨_, hstep, by rw [hpos]; rfl, rfl⟩

end Sys2Proof.Machine
end

section
/-! PROOF. The invariant: every effect of a command, of an event and of the ENCODING step keeps it, and under it the machine
stops for two reasons only. -/

namespace Sys2Proof.Machine

/-! ### Commands -/

/-- An idle block that latches a request that fits, and for a SHOW a stream read from its start (R142, R143). -/
theorem Inv.latched {s : State} {r : Request} {pos : Nat} (h : Inv s) (hst : s.st = .idle)
    (hn : r.pixels ≤ s.cfg.maxLeds) (hpos : r.kind = .showFrame → pos = 0) (stream : List Byte) :
    Inv { s with req := some r, stream := stream, pos := pos, st := .encoding } := by
  have husable : s.st.usable = true := by rw [hst]; rfl
  exact { h with
    table := h.table.trans husable
    capacity := fun _ => h.capacity husable
    started := h.started.trans husable
    fits := fun _ hr => Option.some_inj.mp hr ▸ hn
    requested := fun _ => rfl
    fresh := fun _ _ _ hr => Option.some_inj.mp hr ▸ hpos
    transfer := nofun
    waited := fun _ => h.waited (.inl hst) }

/-- Every accepted command keeps the invariant. -/
theorem Inv.commandEffect {i : Instr} {s t : State} (h : Inv s) (he : CommandEffect i s t) : Inv t := by
  cases he with
  | rejected e he => exact { h with }
  | rateReported hu => exact { h with }
  | configError e he hst =>
    have hunusable : s.st.usable = false := by rw [hst]; rfl
    exact { h with
      table := h.table.trans hunusable
      capacity := nofun
      started := h.started.trans hunusable
      requested := nofun
      fresh := nofun
      transfer := nofun
      waited := nofun }
  | configured pt hpt hcap hst =>
    exact { h with
      table := rfl
      sound := fun _ hq => Option.some_inj.mp hq ▸ patternsSound_of_initPatterns h.config hpt
      capacity := fun _ => hcap
      started := rfl
      requested := nofun
      fresh := nofun
      transfer := nofun
      waited := nofun }
  | showTaken n x hst hn =>
    exact h.latched (r := { kind := .showFrame, n := n, scale := x }) hst hn (fun _ => rfl) s.offer
  | clearTaken n hst hn => exact h.latched (r := { kind := .clear, n := n, scale := 0 }) hst hn nofun s.stream

/-- The acceptance of a held word keeps the invariant. -/
theorem Inv.acceptEffect {k : Nat} {s t : State} (h : Inv s) (he : AcceptEffect k s t) : Inv t := by
  have hreleased : Inv { s with held := s.held.eraseIdx k } := { h with }
  cases he with
  | held => exact h
  | illegal w hw r hd hr => exact { hreleased with }
  | command w hw i hd hr t ht => exact hreleased.commandEffect ht

/-! ### The ENCODING step -/

/-- Bytes written from offset 0 stay inside a buffer that has room for them. -/
theorem putBytes_inside {buf : Memory} {size : Nat} {bytes : List Byte} (h : ∀ cell ∈ buf, cell.1 < size)
    (hlen : bytes.length ≤ size) (pos : Nat) :
    ∀ cell ∈ (putBytes { buf := buf, cur := 0, pos := pos } bytes).buf, cell.1 < size := by
  intro cell hcell
  rcases putBytes_mem hcell with hnew | hold
  · have hlt : cell.1 < 0 + bytes.length := hnew
    omega
  · exact h cell hold

/-- A frame cut short keeps the invariant. -/
theorem Inv.frameCutShort {s : State} {bytes : List Byte} (h : Inv s) (hlen : bytes.length ≤ s.cfg.bufBytes)
    (pos p : Nat) : Inv (frameCutShort s bytes pos p) :=
  { h with
    canonical := putBytes_wf h.canonical bytes
    inside := putBytes_inside h.inside hlen s.pos
    fresh := nofun }

/-- A whole frame written keeps the invariant, the block seen as done with it. -/
theorem AboutToEncode.written_inv {s : State} {pt : PatternTable} {r : Request} {rest : List Event}
    (h : AboutToEncode s pt r rest) : Inv { frameWritten { s with schedule := rest } pt r with st := .cooldown } := by
  have husable : s.st.usable = true := by rw [h.encoding]; rfl
  obtain ⟨hsound, hfits, -, -⟩ := h.sizes
  have hlen := frameBytes_length_xlen hsound h.stream
  exact { h.inv with
    canonical := putBytes_wf h.inv.canonical (frameBytes s.cfg pt (componentsOf s r))
    inside := putBytes_inside h.inv.inside (hlen.trans_le hfits) s.pos
    table := h.inv.table.trans husable
    capacity := fun _ => h.inv.capacity husable
    started := h.inv.started.trans husable
    requested := nofun
    fresh := nofun
    transfer := nofun
    waited := nofun }

/-- A whole frame, empty or handed over, keeps the invariant. -/
theorem AboutToEncode.step_inv {s t : State} {pt : PatternTable} {r : Request} {rest : List Event}
    (h : AboutToEncode s pt r rest) (ht : step s = .next t) : Inv t := by
  have hwritten := h.written_inv
  cases h.step_eq.symm.trans ht
  split
  · exact { hwritten with transfer := nofun, waited := nofun }
  · rename_i hx
    have hlen := (frameBytes_length_xlen h.sizes.1 h.stream).trans h.xlen_toNat.symm
    exact { hwritten with
      requested := nofun
      fresh := nofun
      transfer := fun _ => ⟨⟨hlen, List.getLast?_concat⟩, Nat.pos_of_ne_zero (h.xlen_toNat.trans_ne hx)⟩
      waited := fun _ => h.inv.waited (.inr (.inl h.encoding)) }

/-- The ENCODING step keeps the invariant. -/
theorem Inv.step_encode {s t : State} {rest : List Event} (h : Inv s) (hf : s.fault = none) (hst : s.st = .encoding)
    (hs : s.schedule = .encode :: rest) (ht : step s = .next t) : Inv t := by
  obtain ⟨pt, r, hready⟩ | ⟨bytes, pos, p, hlen, hstep⟩ := h.encode_cases hf hst hs
  · exact hready.step_inv ht
  · cases hstep.symm.trans ht
    have htaken : Inv { s with schedule := rest } := { h with }
    exact htaken.frameCutShort hlen pos p

/-! ### The other events -/

/-- A usable block that goes to COOLDOWN, or to IDLE with its deadline come, whatever it writes of the transfer, the timer
and the response. -/
theorem Inv.atRest {s : State} {st : SeqState} {inflight : Option (List Byte)} {txlog : List TxRecord} {deadline : Nat}
    {err : ErrCode} {result : BitVec 32} {respSeq : BitVec 16} (h : Inv s) (husable : s.st.usable = true)
    (hst : st = .cooldown ∨ (st = .idle ∧ deadline ≤ s.now)) :
    Inv { s with
      st := st
      inflight := inflight
      txlog := txlog
      deadline := deadline
      err := err
      result := result
      respSeq := respSeq } := by
  obtain ⟨husable', henc, htx⟩ : st.usable = true ∧ st ≠ .encoding ∧ st ≠ .transmitting := by
    obtain rfl | ⟨rfl, -⟩ := hst <;> decide
  exact { h with
    table := h.table.trans (husable.trans husable'.symm)
    capacity := fun _ => h.capacity husable
    started := h.started.trans (husable.trans husable'.symm)
    requested := fun hst' => absurd hst' henc
    fresh := fun hst' => absurd hst' henc
    transfer := fun hst' => absurd hst' htx
    waited := by
      obtain rfl | ⟨-, hover⟩ := hst
      · exact nofun
      · exact fun _ => hover }

theorem Inv.completeTransfer {s : State} (h : Inv s) (hst : s.st = .transmitting) : Inv (completeTransfer s) :=
  h.atRest (by rw [hst]; rfl) (.inl rfl)

theorem Inv.failTransfer {s : State} (h : Inv s) (hst : s.st = .transmitting) : Inv (failTransfer s) :=
  h.atRest (by rw [hst]; rfl) (.inr ⟨rfl, h.waited (.inr (.inr hst))⟩)

theorem Inv.leaveCooldown {s : State} (h : Inv s) (hst : s.st = .cooldown) (hd : s.deadline ≤ s.now) :
    Inv (leaveCooldown s) := h.atRest (by rw [hst]; rfl) (.inr ⟨rfl, hd⟩)

theorem Inv.advanceClock {s : State} (h : Inv s) (ticks : Nat) : Inv (advanceClock s ticks) :=
  { h with waited := fun hst => (h.waited hst).trans (Nat.le_add_right _ _) }

/-- The start state of a well-formed configuration has the invariant. -/
theorem inv_resetWith {c : Config} (hc : c.wellFormed = true) : Inv (State.resetWith c) where
  config := hc
  canonical := rfl
  inside := nofun
  table := rfl
  sound := nofun
  capacity := nofun
  started := rfl
  fits := nofun
  requested := nofun
  fresh := nofun
  transfer := nofun
  waited := nofun

theorem Inv.resetBlock {s : State} (h : Inv s) : Inv (resetBlock s) :=
  { inv_resetWith h.config with fresh := nofun, transfer := nofun, waited := nofun }

/-- Settles O50: at the start no cell and no register that the invariant looks at has a value. -/
theorem invariantAtReset : Obligations.InvariantAtReset := ⟨fun _ hc => inv_resetWith hc, inv_resetWith (by decide)⟩

/-- Settles O51: the step waits or takes an event, and every event's effect keeps the invariant. -/
theorem stepKeepsTheInvariant : Obligations.StepKeepsTheInvariant := by
  intro s t h ht
  obtain ⟨-, ⟨-, rfl⟩ | ⟨e, rest, hs, he⟩⟩ := step_cases ht
  · exact h
  have htaken : Inv { s with schedule := rest } := { h with }
  cases he with
  | written a => exact { h with }
  | read a v => exact { h with }
  | offered stream => exact { h with }
  | accept k t hf he => exact htaken.acceptEffect he
  | cooldownOver hf hst hd => exact htaken.leaveCooldown hst hd
  | encoded t hf hst => exact h.step_encode hf hst hs ht
  | cooldownNotEnabled | encodeNotEnabled | doneIgnored | failedIgnored => exact htaken
  | done hst => exact htaken.completeTransfer hst
  | failed hst => exact htaken.failTransfer hst
  | clock ticks => exact htaken.advanceClock ticks
  | reset => exact htaken.resetBlock

end Sys2Proof.Machine
end

section
/-! PROOF. The stops (R12, R60, R154): a marked block faults at every event of its own and the mark stays, and under the
invariant nothing else stops the machine but an undefined register access. -/

namespace Sys2Proof.Machine

/-! ### After the mark -/

theorem blockStep_marked {s : State} {p : Nat} (h : s.fault = some (.streamUnderrun p)) (rule : Answer) :
    blockStep s rule = .fault (.streamUnderrun p) := by
  rw [blockStep, h]

/-- An event of a marked block is the fault of the mark. -/
theorem step_marked {s : State} {p : Nat} {e : Event} {rest : List Event} (hc : s.cfg.wellFormed = true)
    (hf : s.fault = some (.streamUnderrun p)) (hs : s.schedule = e :: rest) (he : e.ofBlock = true) :
    step s = .fault (.streamUnderrun p) := by
  rw [step_event hc hs]
  cases e with
  | accept | endCooldown | encode => exact blockStep_marked (by exact hf) _
  | host | colorLayer | transferDone | transferFailed | clock | reset => cases he

/-- No event clears the mark: the block's own are not taken, and the others leave it (R241). -/
theorem EventEffect.fault_eq_of_marked {e : Event} {s t : State} (h : EventEffect s e t) (hf : s.fault ≠ none) :
    t.fault = s.fault := by
  cases h with
  | accept _ _ hnone | cooldownOver hnone | encoded _ hnone => exact absurd hnone hf
  | written | read | cooldownNotEnabled | encodeNotEnabled | offered | done | doneIgnored | failed | failedIgnored | clock
  | reset => rfl

/-- Settles O35: a marked block's own events fault, and every other agent's event keeps the mark. -/
theorem markedBlockTakesNoStep : Obligations.MarkedBlockTakesNoStep := by
  intro s p hf hc
  refine ⟨fun e rest hs he => step_marked hc hf hs he, fun t ht => ?_⟩
  obtain ⟨-, ⟨-, rfl⟩ | ⟨e, rest, hs, he⟩⟩ := step_cases ht
  · rfl
  · exact he.fault_eq_of_marked (by simp [hf])

/-! ### Under the invariant -/

/-- A host access is refused as undefined or answers a next state. -/
theorem hostEvent_outcome (s : State) (a : Access) :
    hostEvent s a = .refused .undefinedAccess ∨ ∃ t, hostEvent s a = .next t := by
  unfold hostEvent accessRegister
  split
  · split
    · exact .inl rfl
    · split
      · split
        · exact .inr ⟨_, rfl⟩
        · exact .inl rfl
      · split
        · exact .inr ⟨_, rfl⟩
        · exact .inl rfl
  · exact .inl rfl

/-- An event of an unmarked block answers a next state: the ENCODING step because the invariant gives it all it reads. -/
theorem Inv.step_next_of_ofBlock {s : State} {e : Event} {rest : List Event} (h : Inv s) (hf : s.fault = none)
    (hs : s.schedule = e :: rest) (he : e.ofBlock = true) : ∃ t, step s = .next t := by
  have hrule : ∀ rule, blockStep { s with schedule := rest } rule = rule := blockStep_unmarked (by exact hf)
  have hstep := step_event h.config hs
  cases e with
  | host | colorLayer | transferDone | transferFailed | clock | reset => cases he
  | accept k =>
    obtain ⟨t, ht, -⟩ := acceptCommand_cases { s with schedule := rest } k
    exact ⟨t, hstep.trans ((hrule _).trans ht)⟩
  | endCooldown =>
    have hanswer := hstep.trans (hrule _)
    split at hanswer <;> exact ⟨_, hanswer⟩
  | encode =>
    by_cases hst : s.st = .encoding
    · obtain ⟨pt, r, hready⟩ | ⟨bytes, pos, p, -, hshort⟩ := h.encode_cases hf hst hs
      · exact ⟨_, hready.step_eq⟩
      · exact ⟨_, hshort⟩
    · exact ⟨_, hstep.trans ((hrule _).trans (if_neg hst))⟩

/-- Everything a step of a state with the invariant can answer. -/
theorem Inv.step_outcome {s : State} (h : Inv s) :
    (∃ t, step s = .next t) ∨
      (∃ p, s.fault = some (.streamUnderrun p) ∧ step s = .fault (.streamUnderrun p)) ∨
      ∃ a rest, s.schedule = .host a :: rest ∧ step s = .refused .undefinedAccess := by
  cases hs : s.schedule with
  | nil => exact .inl ⟨s, step_wait h.config hs⟩
  | cons e rest =>
    cases hblock : e.ofBlock with
    | true =>
      match hf : s.fault with
      | some (.streamUnderrun p) => exact .inr (.inl ⟨p, rfl, step_marked h.config hf hs hblock⟩)
      | none => exact .inl (h.step_next_of_ofBlock hf hs hblock)
    | false =>
      have hstep := step_event h.config hs
      cases e with
      | accept | endCooldown | encode => cases hblock
      | colorLayer | transferDone | transferFailed | clock | reset => exact .inl ⟨_, hstep⟩
      | host a =>
        obtain hrefused | ⟨t, hnext⟩ := hostEvent_outcome { s with schedule := rest } a
        · exact .inr (.inr ⟨a, rest, rfl, hstep.trans hrefused⟩)
        · exact .inl ⟨t, hstep.trans hnext⟩

/-- Settles O52: a step of a state with the invariant has no other stops than the two. -/
theorem invariantLimitsTheStops : Obligations.InvariantLimitsTheStops := by
  intro s h
  refine ⟨fun f hstop => ?_, fun q hstop => ?_⟩
  · obtain ⟨t, ht⟩ | ⟨p, hf, hp⟩ | ⟨a, rest, hs, hrefused⟩ := h.step_outcome
    · cases ht.symm.trans hstop
    · cases hp.symm.trans hstop
      exact ⟨p, hf, rfl⟩
    · cases hrefused.symm.trans hstop
  · obtain ⟨t, ht⟩ | ⟨p, hf, hp⟩ | ⟨a, rest, hs, hrefused⟩ := h.step_outcome
    · cases ht.symm.trans hstop
    · cases hp.symm.trans hstop
    · cases hrefused.symm.trans hstop
      exact ⟨rfl, a, rest, hs⟩

end Sys2Proof.Machine
end

section
/-! PROOF. What the events write (R154 and the rules of the registers): for each register or group of them, the events that
change it and to what. -/

namespace Sys2Proof.Machine

/-! ### The buffer, and the state outside the block -/

/-- No command writes the configuration, the buffer, the clock, the log or the schedule. -/
theorem CommandEffect.keeps {i : Instr} {s t : State} (h : CommandEffect i s t) :
    t.cfg = s.cfg ∧ t.buf = s.buf ∧ t.now = s.now ∧ t.txlog = s.txlog ∧ t.schedule = s.schedule := by
  cases h with
  | rejected | configError | configured | showTaken | clearTaken | rateReported => exact ⟨rfl, rfl, rfl, rfl, rfl⟩

theorem AcceptEffect.keeps {k : Nat} {s t : State} (h : AcceptEffect k s t) :
    t.cfg = s.cfg ∧ t.buf = s.buf ∧ t.now = s.now ∧ t.txlog = s.txlog ∧ t.schedule = s.schedule := by
  cases h with
  | held | illegal => exact ⟨rfl, rfl, rfl, rfl, rfl⟩
  | command w hw i hd hr t ht => exact ht.keeps

theorem EncodeEffect.keeps {s t : State} (h : EncodeEffect s t) :
    t.cfg = s.cfg ∧ t.now = s.now ∧ t.schedule = s.schedule := by
  cases h with
  | underrun | empty | sent => exact ⟨rfl, rfl, rfl⟩

/-- Setting an outcome keeps the bytes of every record. -/
@[simp] theorem setLastOutcome_bytes (log : List TxRecord) (o : TxOutcome) :
    (setLastOutcome log o).map TxRecord.bytes = log.map TxRecord.bytes := by
  induction log with
  | nil => rfl
  | cons r rest ih =>
    cases rest with
    | nil => rfl
    | cons r' rest => rw [setLastOutcome, List.map_cons, ih, ← List.map_cons]

/-- The ENCODING step takes no record off the log. -/
theorem EncodeEffect.log_grows {s t : State} (h : EncodeEffect s t) :
    ∃ sent, t.txlog.map TxRecord.bytes = s.txlog.map TxRecord.bytes ++ sent := by
  cases h with
  | underrun | empty => exact ⟨[], (List.append_nil _).symm⟩
  | sent buf pos len xlen bytes hx hb => exact ⟨[bytes], List.map_append⟩

/-- Every event keeps the configuration and the events to come, and only the clock's moves the clock. -/
theorem EventEffect.keeps {e : Event} {s t : State} (h : EventEffect s e t) :
    t.cfg = s.cfg ∧ t.schedule = s.schedule ∧
      (t.now = s.now ∨ ∃ ticks, e = .clock ticks ∧ t.now = s.now + ticks) := by
  cases h with
  | clock ticks => exact ⟨rfl, rfl, .inr ⟨ticks, rfl, rfl⟩⟩
  | accept k t hf h =>
    obtain ⟨hcfg, -, hnow, -, hschedule⟩ := h.keeps
    exact ⟨hcfg, hschedule, .inl hnow⟩
  | encoded t hf hst hrun h =>
    obtain ⟨hcfg, hnow, hschedule⟩ := h.keeps
    exact ⟨hcfg, hschedule, .inl hnow⟩
  | written | read | cooldownOver | cooldownNotEnabled | encodeNotEnabled | offered | done | doneIgnored | failed
  | failedIgnored | reset => exact ⟨rfl, rfl, .inl rfl⟩

/-- No event takes a record off the log. -/
theorem EventEffect.log_grows {e : Event} {s t : State} (h : EventEffect s e t) :
    ∃ sent, t.txlog.map TxRecord.bytes = s.txlog.map TxRecord.bytes ++ sent := by
  cases h with
  | accept k t hf h =>
    obtain ⟨-, -, -, hlog, -⟩ := h.keeps
    exact ⟨[], by rw [hlog, List.append_nil]⟩
  | encoded t hf hst hrun h => exact h.log_grows
  | done | failed => exact ⟨[], (setLastOutcome_bytes _ _).trans (List.append_nil _).symm⟩
  | written | read | cooldownOver | cooldownNotEnabled | encodeNotEnabled | offered | doneIgnored | failedIgnored | clock
  | reset => exact ⟨[], (List.append_nil _).symm⟩

/-- An event that changes the buffer is the ENCODING step or reset. -/
theorem EventEffect.buf_changed {e : Event} {s t : State} (h : EventEffect s e t) (hne : t.buf ≠ s.buf) :
    (e = .encode ∧ s.st = .encoding) ∨ (e = .reset ∧ t.buf = []) := by
  cases h with
  | encoded t hf hst => exact .inl ⟨rfl, hst⟩
  | reset => exact .inr ⟨rfl, rfl⟩
  | accept k t hf h =>
    obtain ⟨-, hbuf, -⟩ := h.keeps
    exact absurd hbuf hne
  | written | read | cooldownOver | cooldownNotEnabled | encodeNotEnabled | offered | done | doneIgnored | failed
  | failedIgnored | clock => exact absurd rfl hne

/-- Settles O55: a step with no event changes nothing, and only two events change the buffer. -/
theorem onlyEncodingWritesTheBuffer : Obligations.OnlyEncodingWritesTheBuffer := by
  intro s t ht hne
  obtain ⟨-, ⟨-, rfl⟩ | ⟨e, rest, hs, he⟩⟩ := step_cases ht
  · exact absurd rfl hne
  · obtain ⟨rfl, hst⟩ | ⟨rfl, hbuf⟩ := he.buf_changed hne
    · exact .inl ⟨rest, hs, hst⟩
    · exact .inr ⟨rest, hs, hbuf⟩

/-- Settles O56: no event writes the configuration, the clock's alone moves the clock, and a record that is on the log keeps
its bytes. -/
theorem outsideStateOnlyGrows : Obligations.OutsideStateOnlyGrows := by
  intro s t ht
  obtain ⟨-, ⟨-, rfl⟩ | ⟨e, rest, hs, he⟩⟩ := step_cases ht
  · exact ⟨rfl, le_rfl, fun hne => absurd rfl hne, [], (List.append_nil _).symm⟩
  · obtain ⟨hcfg, -, hnow | ⟨ticks, rfl, hnow⟩⟩ := he.keeps
    · exact ⟨hcfg, hnow.ge, fun hne => absurd hnow hne, he.log_grows⟩
    · exact ⟨hcfg, hnow ▸ Nat.le_add_right _ _, fun _ => ⟨ticks, rest, hs, hnow⟩, he.log_grows⟩

/-! ### The sequencer state (R154) -/

/-- The command that changes the sequencer state. -/
theorem CommandEffect.transition {i : Instr} {s t : State} (h : CommandEffect i s t) (hne : t.st ≠ s.st) :
    (i = .init ∧ s.st = .unconfigured ∧
        ((t.st = .cooldown ∧ t.err = .ok) ∨ (t.st = .cfgError ∧ (t.err = .cfgPattern ∨ t.err = .cfgCapacity)))) ∨
      ∃ n sc, (i = .showFrame n sc ∨ i = .clear n) ∧ n.toNat ≤ s.cfg.maxLeds ∧ s.st = .idle ∧ t.st = .encoding := by
  cases h with
  | rejected | rateReported => exact absurd rfl hne
  | configError e he hst => exact .inl ⟨rfl, hst, .inr ⟨rfl, he⟩⟩
  | configured pt hpt hcap hst => exact .inl ⟨rfl, hst, .inl ⟨rfl, rfl⟩⟩
  | showTaken n x hst hn => exact .inr ⟨n, x, .inl rfl, hn, hst, rfl⟩
  | clearTaken n hst hn => exact .inr ⟨n, 0, .inr rfl, hn, hst, rfl⟩

/-- An acceptance that changes the sequencer state accepts a command that does. -/
theorem AcceptEffect.transition {k : Nat} {s t : State} (h : AcceptEffect k s t) (hne : t.st ≠ s.st) :
    ∃ w, s.held[k]? = some w ∧
      ((decode w = .ok .init ∧ s.st = .unconfigured ∧
          ((t.st = .cooldown ∧ t.err = .ok) ∨ (t.st = .cfgError ∧ (t.err = .cfgPattern ∨ t.err = .cfgCapacity)))) ∨
        ∃ n sc, (decode w = .ok (.showFrame n sc) ∨ decode w = .ok (.clear n)) ∧ n.toNat ≤ s.cfg.maxLeds ∧
          s.st = .idle ∧ t.st = .encoding) := by
  cases h with
  | held | illegal => exact absurd rfl hne
  | command w hw i hd hr t ht =>
    refine ⟨w, hw, ?_⟩
    obtain ⟨rfl, hinit⟩ | ⟨n, sc, rfl | rfl, htaken⟩ := ht.transition hne
    · exact .inl ⟨hd, hinit⟩
    · exact .inr ⟨n, sc, .inl hd, htaken⟩
    · exact .inr ⟨n, sc, .inr hd, htaken⟩

/-- The state the ENCODING step leaves to, by the length of the frame. -/
theorem EncodeEffect.transition {s t : State} (h : EncodeEffect s t) (hne : t.st ≠ s.st) :
    (t.st = .transmitting ∧ t.xferLen ≠ 0) ∨ (t.st = .cooldown ∧ t.xferLen = 0) := by
  cases h with
  | underrun => exact absurd rfl hne
  | empty => exact .inr ⟨rfl, rfl⟩
  | sent buf pos len xlen bytes hx => exact .inl ⟨rfl, hx⟩

/-- Settles O53: each event's effect either keeps the state or is the transition listed for the event. -/
theorem onlyListedTransitions : Obligations.OnlyListedTransitions := by
  intro s t ht hne
  obtain ⟨-, ⟨-, rfl⟩ | ⟨e, rest, hs, he⟩⟩ := step_cases ht
  · exact absurd rfl hne
  cases he with
  | written | read | cooldownNotEnabled | encodeNotEnabled | offered | doneIgnored | failedIgnored | clock =>
    exact absurd rfl hne
  | accept k t hf h =>
    obtain ⟨w, hw, htransition⟩ := h.transition hne
    exact .inl ⟨k, w, rest, hs, hw, htransition⟩
  | encoded t hf hst hrun h => exact .inr (.inl ⟨rest, hs, hst, h.transition hne⟩)
  | done hst => exact .inr (.inr (.inl ⟨rest, hs, hst, rfl⟩))
  | failed hst => exact .inr (.inr (.inr (.inl ⟨rest, hs, hst, rfl⟩)))
  | cooldownOver hf hst hd => exact .inr (.inr (.inr (.inr (.inl ⟨rest, hs, hst, hd, rfl⟩))))
  | reset => exact .inr (.inr (.inr (.inr (.inr ⟨rest, hs, rfl⟩))))

/-! ### The pattern table (R23) -/

/-- The command that changes the pattern table. -/
theorem CommandEffect.pt_changed {i : Instr} {s t : State} (h : CommandEffect i s t) (hne : t.pt ≠ s.pt) :
    i = .init ∧ s.st = .unconfigured ∧ t.pt = initPatterns s.cfg ∧ t.err = .ok := by
  cases h with
  | configured pt hpt hcap hst => exact ⟨rfl, hst, hpt.symm, rfl⟩
  | rejected | configError | showTaken | clearTaken | rateReported => exact absurd rfl hne

/-- The ENCODING step reads the pattern table and leaves it. -/
theorem EncodeEffect.pt_eq {s t : State} (h : EncodeEffect s t) : t.pt = s.pt := by
  cases h with
  | underrun | empty | sent => rfl

/-- Settles O54: of the commands INIT alone writes the table, and of the events reset alone. -/
theorem patternTableIsWrittenByInitOnly : Obligations.PatternTableIsWrittenByInitOnly := by
  intro s t ht hne
  obtain ⟨-, ⟨-, rfl⟩ | ⟨e, rest, hs, he⟩⟩ := step_cases ht
  · exact absurd rfl hne
  cases he with
  | written | read | cooldownOver | cooldownNotEnabled | encodeNotEnabled | offered | done | doneIgnored | failed
  | failedIgnored | clock => exact absurd rfl hne
  | encoded t hf hst hrun h => exact absurd h.pt_eq hne
  | reset => exact .inr ⟨rest, hs, rfl⟩
  | accept k t hf h =>
    cases h with
    | held | illegal => exact absurd rfl hne
    | command w hw i hd hr t ht =>
      obtain ⟨rfl, hst, hpt, herr⟩ := ht.pt_changed hne
      exact .inl ⟨k, w, rest, hs, hw, hd, hst, hpt, herr⟩

/-! ### The response (R30, R204) -/

/-- From `s` to `t` there was no response, or one, whose RESULT is 0 on an error. -/
def AtMostOneResponse (s t : State) : Prop :=
  (t.err = s.err ∧ t.result = s.result ∧ t.respSeq = s.respSeq) ∨
    (t.respSeq = s.respSeq + 1 ∧ (t.err ≠ .ok → t.result = 0))

theorem AtMostOneResponse.refl (s : State) : AtMostOneResponse s s := .inl ⟨rfl, rfl, rfl⟩

theorem CommandEffect.atMostOneResponse {i : Instr} {s t : State} (h : CommandEffect i s t) : AtMostOneResponse s t := by
  cases h with
  | rejected | configError | configured => exact .inr ⟨rfl, fun _ => rfl⟩
  | showTaken | clearTaken => exact .inl ⟨rfl, rfl, rfl⟩
  | rateReported => exact .inr ⟨rfl, fun hne => absurd rfl hne⟩

theorem AcceptEffect.atMostOneResponse {k : Nat} {s t : State} (h : AcceptEffect k s t) : AtMostOneResponse s t := by
  cases h with
  | held => exact .refl s
  | illegal => exact .inr ⟨rfl, fun _ => rfl⟩
  | command w hw i hd hr t ht => exact ht.atMostOneResponse

theorem EncodeEffect.atMostOneResponse {s t : State} (h : EncodeEffect s t) : AtMostOneResponse s t := by
  cases h with
  | underrun | sent => exact .inl ⟨rfl, rfl, rfl⟩
  | empty => exact .inr ⟨rfl, fun _ => rfl⟩

/-- Settles O57: each event's effect responds at most once, but for reset. -/
theorem responsesComeOneAtATime : Obligations.ResponsesComeOneAtATime := by
  intro s t ht
  obtain ⟨-, ⟨-, rfl⟩ | ⟨e, rest, hs, he⟩⟩ := step_cases ht
  · exact .inl ⟨rfl, rfl, rfl⟩
  rw [← or_assoc]
  cases he with
  | written | read | cooldownOver | cooldownNotEnabled | encodeNotEnabled | offered | doneIgnored | failedIgnored | clock =>
    exact .inl (.inl ⟨rfl, rfl, rfl⟩)
  | accept k t hf h => exact .inl h.atMostOneResponse
  | encoded t hf hst hrun h => exact .inl h.atMostOneResponse
  | done => exact .inl (.inr ⟨rfl, fun hne => absurd rfl hne⟩)
  | failed => exact .inl (.inr ⟨rfl, fun _ => rfl⟩)
  | reset => exact .inr ⟨rest, hs, rfl, rfl, rfl⟩

end Sys2Proof.Machine
end

section
/-! PROOF. The hold-off (R155): until the clock reaches the deadline of a completion the block waits in COOLDOWN, whatever
the other agents do short of a reset. -/

namespace Sys2Proof.Machine

/-- The clock has come to `time`, or the block waits in COOLDOWN for a deadline that is no earlier. -/
def WaitsUntil (time : Nat) (s : State) : Prop := time ≤ s.now ∨ (s.st = .cooldown ∧ time ≤ s.deadline)

/-- A command accepted in COOLDOWN only responds. -/
theorem CommandEffect.waits {i : Instr} {s t : State} (h : CommandEffect i s t) (hst : s.st = .cooldown) :
    t.st = .cooldown ∧ t.deadline = s.deadline := by
  cases h with
  | rejected | rateReported => exact ⟨hst, rfl⟩
  | configError _ _ hst' | configured _ _ _ hst' | showTaken _ _ hst' | clearTaken _ hst' =>
    rw [hst] at hst'
    cases hst'

theorem AcceptEffect.waits {k : Nat} {s t : State} (h : AcceptEffect k s t) (hst : s.st = .cooldown) :
    t.st = .cooldown ∧ t.deadline = s.deadline := by
  cases h with
  | held | illegal => exact ⟨hst, rfl⟩
  | command w hw i hd hr t ht => exact ht.waits hst

/-- In COOLDOWN every event but reset keeps the wait, and ends it only when the deadline has come. -/
theorem EventEffect.waitsUntil {e : Event} {s t : State} {time : Nat} (h : EventEffect s e t) (hr : e ≠ .reset)
    (hst : s.st = .cooldown) (hd : time ≤ s.deadline) : WaitsUntil time t := by
  cases h with
  | accept k t hf h =>
    obtain ⟨hst', hd'⟩ := h.waits hst
    exact .inr ⟨hst', hd.trans hd'.ge⟩
  | cooldownOver hf hcool hover => exact .inl (hd.trans hover)
  | encoded _ _ hst' | done hst' | failed hst' =>
    rw [hst] at hst'
    cases hst'
  | reset => exact absurd rfl hr
  | written | read | cooldownNotEnabled | encodeNotEnabled | offered | doneIgnored | failedIgnored | clock =>
    exact .inr ⟨hst, hd⟩

/-- One step with no reset to come keeps the wait, and leaves no reset to come. -/
theorem WaitsUntil.step {time : Nat} {s t : State} (h : WaitsUntil time s) (hs : ∀ e ∈ s.schedule, e ≠ .reset)
    (ht : step s = .next t) : WaitsUntil time t ∧ ∀ e ∈ t.schedule, e ≠ .reset := by
  obtain ⟨-, hclock, -, -⟩ := outsideStateOnlyGrows s t ht
  obtain ⟨-, ⟨-, rfl⟩ | ⟨e, rest, hsched, he⟩⟩ := step_cases ht
  · exact ⟨h, hs⟩
  · rw [hsched] at hs
    obtain ⟨hr, hrest⟩ := List.forall_mem_cons.mp hs
    obtain ⟨-, hkept, -⟩ := he.keeps
    refine ⟨?_, hkept ▸ hrest⟩
    obtain hnow | ⟨hst, hd⟩ := h
    · exact .inl (hnow.trans hclock)
    · exact he.waitsUntil hr hst hd

/-- A whole run with no reset in its schedule keeps the wait, by induction on its steps. -/
theorem WaitsUntil.runSteps {time k : Nat} {s t : State} (h : WaitsUntil time s) (hs : ∀ e ∈ s.schedule, e ≠ .reset)
    (hrun : runSteps k s = .next t) : WaitsUntil time t := by
  induction k generalizing s with
  | zero =>
    rw [runSteps_zero hrun]
    exact h
  | succ k ih =>
    obtain ⟨u, hstep, hrest⟩ := runSteps_succ hrun
    obtain ⟨hu, hschedule⟩ := h.step hs hstep
    exact ih hu hschedule hrest

/-- The step of a completion in TRANSMITTING. -/
theorem step_transferDone {s : State} {rest : List Event} (hc : s.cfg.wellFormed = true) (hst : s.st = .transmitting)
    (hs : s.schedule = .transferDone :: rest) : step s = .next (completeTransfer { s with schedule := rest }) := by
  rw [step_event hc hs]
  show Host.Outcome.next (transferDoneEvent { s with schedule := rest }) = _
  rw [transferDoneEvent, if_pos (by exact hst)]

/-- Settles O58: the completion starts a wait for the hold-off, and a block in ENCODING waits no longer. -/
theorem holdoffBeforeTheNextFrame : Obligations.HoldoffBeforeTheNextFrame := by
  intro s t rest k hst hs hrest hrun henc
  obtain ⟨u, hstep, hrun⟩ := runSteps_succ hrun
  obtain ⟨hc, -⟩ := step_cases hstep
  cases (step_transferDone hc hst hs).symm.trans hstep
  have hwait : WaitsUntil (s.now + s.cfg.holdoff) (completeTransfer { s with schedule := rest }) := .inr ⟨rfl, le_rfl⟩
  obtain hnow | ⟨hcool, -⟩ := hwait.runSteps hrest hrun
  · exact hnow
  · rw [henc] at hcool
    cases hcool

end Sys2Proof.Machine
end

section
/-! PROOF. The frame as written and as handed over (R127, R131, R146): its lengths, its bytes in the buffer and at the
peripheral, and the frames of no light. -/

namespace Sys2Proof.Machine

/-! ### Lengths -/

theorem xlen_eq_content_add_framing (c : Config) (n : Nat) : xlen c n = content c n + framing c := by
  rw [xlen, framing]
  omega

/-- Settles O27: the whole frame fits a 32-bit length, so neither register wraps. -/
theorem encoderReturnsLengths : Obligations.EncoderReturnsLengths := by
  intro s pt r rest h
  obtain ⟨t, hstep, -⟩ := h.step_buf
  obtain ⟨hcontent, hxfer, -, -⟩ := h.step_registers hstep
  obtain ⟨-, hfits, hsmall, -⟩ := h.sizes
  have hsum := xlen_eq_content_add_framing s.cfg r.pixels
  have hlen : t.contentLen.toNat = content s.cfg r.pixels := by
    rw [hcontent, BitVec.toNat_ofNat, Nat.mod_eq_of_lt (by omega)]
  exact ⟨t, hstep, hlen, by rw [hxfer, h.xlen_toNat, hlen, hsum]⟩

/-! ### The bytes in the buffer and at the peripheral -/

/-- After the ENCODING step the buffer's first `XLEN(n)` cells read as the frame's bytes. -/
theorem AboutToEncode.step_readRange {s t : State} {pt : PatternTable} {r : Request} {rest : List Event}
    (h : AboutToEncode s pt r rest) (ht : step s = .next t) :
    Memory.readRange t.buf 0 (xlen s.cfg r.pixels) = .ok (frameBytes s.cfg pt (componentsOf s r)) := by
  obtain ⟨t, hstep, hbuf⟩ := h.step_buf
  cases hstep.symm.trans ht
  have hlen := frameBytes_length_xlen h.sizes.1 h.stream
  rw [← hlen]
  refine Memory.readRange_eq fun j v hj => ?_
  have hlt := (List.getElem?_eq_some_iff.mp hj).1
  rw [Nat.zero_add, hbuf, if_pos (hlen ▸ hlt), hj]

/-- The ENCODING step of a frame with bytes hands them over (R146, R147). -/
theorem AboutToEncode.step_sent {s : State} {pt : PatternTable} {r : Request} {rest : List Event}
    (h : AboutToEncode s pt r rest) (hx : 0 < xlen s.cfg r.pixels) :
    step s = .next { frameWritten { s with schedule := rest } pt r with
      inflight := some (frameBytes s.cfg pt (componentsOf s r))
      txlog := s.txlog ++ [{ bytes := frameBytes s.cfg pt (componentsOf s r), outcome := .pending }]
      st := .transmitting } := by
  rw [h.step_eq, if_neg (Nat.ne_of_gt hx)]

/-- Settles O36: what is handed over is what the buffer reads as, the frame's bytes. -/
theorem encodingHandsTheFrameOver : Obligations.EncodingHandsTheFrameOver := by
  intro s pt r rest h hx
  have hstep := h.step_sent hx
  exact ⟨_, _, hstep, h.step_readRange hstep, rfl, rfl, rfl, rfl, rfl, rfl, rfl, rfl⟩

/-! ### Frames of no light -/

/-- The bits of an all-zero stream are all low. -/
theorem wireBits_zeros (m : Nat) : wireBits (List.replicate m 0x00) = List.replicate (m * 8) false := by
  have hbyte : wireBitsOfByte 0x00 = List.replicate 8 false := rfl
  rw [wireBits, List.flatMap_replicate, hbyte, List.flatten_replicate_replicate]

/-- A frame of zero components is the ZERO-pattern, eight times a component, between the framing bytes. -/
theorem frameBytes_zeros (c : Config) (pt : PatternTable) (m : Nat) :
    frameBytes c pt (List.replicate m 0x00) = c.lead ++ (List.replicate (m * 8) pt.zero).flatten ++ c.trail := by
  rw [frameBytes_eq_wireBits, wireBits_zeros, List.flatMap_replicate, List.append_assoc]
  rfl

theorem componentsOf_clear (s : State) {r : Request} (hkind : r.kind = .clear) :
    componentsOf s r = List.replicate (3 * r.pixels) 0x00 := by
  rw [componentsOf, hkind]

/-- The stream of a SHOW frame about to be encoded is read from its start (R53). -/
theorem AboutToEncode.pos_eq_zero {s : State} {pt : PatternTable} {r : Request} {rest : List Event}
    (h : AboutToEncode s pt r rest) (hkind : r.kind = .showFrame) : s.pos = 0 :=
  h.inv.fresh h.encoding h.noFault r h.request hkind

theorem AboutToEncode.componentsOf_show {s : State} {pt : PatternTable} {r : Request} {rest : List Event}
    (h : AboutToEncode s pt r rest) (hkind : r.kind = .showFrame) :
    componentsOf s r = s.stream.take (3 * r.pixels) := by
  rw [componentsOf, hkind]
  show (s.stream.drop s.pos).take (3 * r.pixels) = _
  rw [h.pos_eq_zero hkind, List.drop_zero]

theorem frameBytes_clear (s : State) (pt : PatternTable) {r : Request} (hkind : r.kind = .clear) :
    frameBytes s.cfg pt (componentsOf s r) =
      s.cfg.lead ++ (List.replicate (24 * r.pixels) pt.zero).flatten ++ s.cfg.trail := by
  rw [componentsOf_clear s hkind, frameBytes_zeros, show 3 * r.pixels * 8 = 24 * r.pixels by omega]

/-- Settles O30: a CLEAR frame's bytes depend on its count, the configuration and the ZERO-pattern alone. -/
theorem clearFrameIsAllZero : Obligations.ClearFrameIsAllZero := by
  refine ⟨fun s pt r rest h hkind => ?_, fun s s' pt r r' rest rest' h h' hcfg hkind hkind' hn hx => ?_⟩
  · have hbytes := frameBytes_clear s pt hkind
    obtain ⟨t, hstep, -⟩ := h.step_buf
    refine ⟨t, hstep, hbytes ▸ h.step_readRange hstep, fun hx => ?_⟩
    cases (h.step_sent hx).symm.trans hstep
    exact congrArg some hbytes
  · have hsame : frameBytes s.cfg pt (componentsOf s r) = frameBytes s'.cfg pt (componentsOf s' r') := by
      rw [frameBytes_clear s pt hkind, frameBytes_clear s' pt hkind', hcfg, hn]
    have hx' : 0 < xlen s'.cfg r'.pixels := by rwa [← hcfg, ← hn]
    obtain ⟨t, hstep, hbuf⟩ := h.step_buf
    obtain ⟨t', hstep', hbuf'⟩ := h'.step_buf
    refine ⟨t, t', hstep, hstep', ?_, fun i hi => ?_⟩
    · cases (h.step_sent hx).symm.trans hstep
      cases (h'.step_sent hx').symm.trans hstep'
      exact congrArg some hsame
    · rw [hbuf, hbuf', if_pos hi, if_pos (by rwa [← hcfg, ← hn]), hsame]

/-- A state about to encode a SHOW frame is, with a CLEAR request of the same count, about to encode that. -/
theorem AboutToEncode.asClear {s : State} {pt : PatternTable} {r : Request} {rest : List Event}
    (h : AboutToEncode s pt r rest) :
    AboutToEncode { s with req := some { r with kind := .clear, scale := 0 } } pt { r with kind := .clear, scale := 0 }
      rest where
  inv := { h.inv with
    fits := fun _ hq => Option.some_inj.mp hq ▸ h.inv.fits r h.request
    requested := fun _ => rfl
    fresh := fun _ _ _ hq hkind => by cases hq; cases hkind }
  noFault := h.noFault
  encoding := h.encoding
  table := h.table
  request := rfl
  stream := nofun
  next := h.next

/-- Settles O31: both frames have the same components, all zero. -/
theorem zeroStreamShowEqualsClear : Obligations.ZeroStreamShowEqualsClear := by
  intro s pt r rest h hkind hzero hx
  have hcomps : componentsOf s r = List.replicate (3 * r.pixels) 0x00 := by
    rw [h.componentsOf_show hkind, hzero, List.take_replicate, Nat.min_self]
  refine ⟨_, _, _, h.step_sent hx, h.asClear.step_sent hx, rfl, ?_⟩
  rw [hcomps]
  rfl

end Sys2Proof.Machine
end

section
/-! PROOF. What a frame depends on (R25, R121, R125): its components alone, neither the stream past them nor the buffer's
old cells. -/

namespace Sys2Proof.Machine

/-- A state about to encode is so over another buffer and another stream. -/
theorem AboutToEncode.withInputs {s : State} {pt : PatternTable} {r : Request} {rest : List Event} {buf : Memory}
    {stream : List Byte} (h : AboutToEncode s pt r rest) (hwf : Memory.wf buf = true)
    (hinside : ∀ cell ∈ buf, cell.1 < s.cfg.bufBytes) (hstream : streamSuffices { s with stream := stream } r) :
    AboutToEncode { s with buf := buf, stream := stream } pt r rest where
  inv := { h.inv with canonical := hwf, inside := hinside }
  noFault := h.noFault
  encoding := h.encoding
  table := h.table
  request := h.request
  stream := hstream
  next := h.next

/-- Over another buffer and another stream with the same components the ENCODING step differs in these two alone. -/
theorem AboutToEncode.step_withInputs {s t : State} {pt : PatternTable} {r : Request} {rest : List Event} {buf : Memory}
    {stream : List Byte} (h : AboutToEncode s pt r rest)
    (h' : AboutToEncode { s with buf := buf, stream := stream } pt r rest)
    (hcomps : componentsOf { s with stream := stream } r = componentsOf s r) (ht : step s = .next t) :
    step { s with buf := buf, stream := stream } = .next { t with
      buf := (putBytes { buf := buf, cur := 0, pos := s.pos } (frameBytes s.cfg pt (componentsOf s r))).buf
      stream := stream } := by
  have hcomps' : componentsOf { s with buf := buf, stream := stream } r = componentsOf s r := hcomps
  have hwritten : frameWritten { s with buf := buf, stream := stream, schedule := rest } pt r =
      { frameWritten { s with schedule := rest } pt r with
        buf := (putBytes { buf := buf, cur := 0, pos := s.pos } (frameBytes s.cfg pt (componentsOf s r))).buf
        stream := stream } := by
    rw [← hcomps]
    rfl
  have hstep' := h'.step_eq
  rw [hcomps'] at hstep'
  cases h.step_eq.symm.trans ht
  rw [hstep', hwritten]
  by_cases hx : xlen s.cfg r.pixels = 0
  · simp only [if_pos hx]
    rfl
  · simp only [if_neg hx]

/-- The buffer after the ENCODING step. -/
theorem AboutToEncode.step_buf_eq {s t : State} {pt : PatternTable} {r : Request} {rest : List Event}
    (h : AboutToEncode s pt r rest) (ht : step s = .next t) :
    t.buf = (putBytes { buf := s.buf, cur := 0, pos := s.pos } (frameBytes s.cfg pt (componentsOf s r))).buf := by
  cases h.step_eq.symm.trans ht
  split <;> rfl

/-- Over another stream with the same components the ENCODING step differs in the stream alone. -/
theorem AboutToEncode.step_withStream {s t : State} {pt : PatternTable} {r : Request} {rest : List Event}
    {stream : List Byte} (h : AboutToEncode s pt r rest) (hstream : streamSuffices { s with stream := stream } r)
    (hcomps : componentsOf { s with stream := stream } r = componentsOf s r) (ht : step s = .next t) :
    step { s with stream := stream } = .next { t with stream := stream } := by
  have h' := h.withInputs h.inv.canonical h.inv.inside hstream
  have hstep := h.step_withInputs h' hcomps ht
  rwa [← h.step_buf_eq ht] at hstep

/-- Settles O29: a SHOW frame's components are the first 3n of its stream, a CLEAR frame's are none of it. -/
theorem encoderReadsExactlyItsComponents : Obligations.EncoderReadsExactlyItsComponents := by
  intro s pt r rest h
  obtain ⟨t, hstep, -⟩ := h.step_buf
  obtain ⟨-, -, hstream, hpos⟩ := h.step_registers hstep
  refine ⟨t, hstep, hstream, fun hkind => ?_, fun hkind => ?_⟩
  · have hzero := h.pos_eq_zero hkind
    have hread : (s.stream.take (3 * r.pixels)).length = 3 * r.pixels := by
      rw [← h.componentsOf_show hkind, componentsOf_length h.stream]
    refine ⟨by rw [hpos, posAfterFrame, hkind, hzero]; exact Nat.zero_add _, fun beyond => ?_⟩
    refine h.step_withStream (fun _ => ?_) ?_ hstep
    · simp only [hzero, List.length_append, hread]
      omega
    · rw [h.componentsOf_show hkind, componentsOf, hkind]
      simp only [hzero, List.drop_zero]
      exact List.take_left' hread
  · refine ⟨by rw [hpos, posAfterFrame, hkind], fun other => ?_⟩
    refine h.step_withStream (fun hshow => ?_) ?_ hstep
    · rw [hkind] at hshow
      cases hshow
    · rw [componentsOf_clear _ hkind, componentsOf_clear _ hkind]

/-- Settles O33: the frame's bytes are the same over either buffer, and below `XLEN(n)` the buffer holds nothing else. -/
theorem frameIgnoresOldBuffer : Obligations.FrameIgnoresOldBuffer := by
  intro s pt r rest old h hwf hinside
  have h' : AboutToEncode { s with buf := old } pt r rest := h.withInputs hwf hinside h.stream
  obtain ⟨t, hstep, hbuf⟩ := h.step_buf
  obtain ⟨u, hstep', hbuf'⟩ := h'.step_buf
  refine ⟨t, u, hstep, hstep', ?_, fun i hi => ?_⟩
  · obtain ⟨-, -, hstream, -⟩ := h.step_registers hstep
    cases (h.step_withInputs (stream := s.stream) h' rfl hstep).symm.trans hstep'
    rw [← hstream]
  · rw [hbuf, hbuf', if_pos hi, if_pos hi]
    rfl

end Sys2Proof.Machine
end

section
/-! PROOF. Reading a frame's content back (R129): grouping undoes the patterns and packing undoes the wire order. -/

namespace Sys2Proof.Machine

/-- Grouping blocks of `size` entries gives the blocks back. -/
theorem groupsOf_flatMap {α β : Type} {f : α → List β} {size : Nat} (hf : ∀ x, (f x).length = size) (xs : List α) :
    groupsOf size xs.length (xs.flatMap f) = xs.map f := by
  induction xs with
  | nil => rfl
  | cons x xs ih =>
    rw [List.flatMap_cons, List.length_cons, groupsOf, List.take_left' (hf x), List.drop_left' (hf x), ih, List.map_cons]

/-- The two patterns differ, so a pattern tells its bit (R24, R129). -/
theorem bitOfGroup_pick {c : Config} {pt : PatternTable} (h : patternsSound c pt) (bit : Bool) :
    bitOfGroup pt (pt.pick bit) = some bit := by
  obtain ⟨-, -, hlt⟩ := h
  have hne : pt.zero ≠ pt.one := fun heq => Nat.lt_irrefl _ (heq ▸ hlt)
  cases bit with
  | true => exact if_pos rfl
  | false => exact (if_neg hne).trans (if_pos rfl)

/-- Reading the pattern of every bit gives the bits. -/
theorem mapM_bitOfGroup_pick {c : Config} {pt : PatternTable} (h : patternsSound c pt) (bits : List Bool) :
    (bits.map pt.pick).mapM (bitOfGroup pt) = some bits := by
  induction bits with
  | nil => rfl
  | cons bit bits ih => simp [List.mapM_cons, bitOfGroup_pick h, ih]

/-- Packing the wire order of a byte gives the byte. -/
theorem packByte_wireBitsOfByte (v : Byte) : packByte (wireBitsOfByte v) = v := by
  revert v
  decide

/-- Reading content back gives its components. -/
theorem decodeContent_wireBits {c : Config} {pt : PatternTable} (h : patternsSound c pt) (comps : List Byte) :
    decodeContent pt c.n comps.length ((wireBits comps).flatMap pt.pick) = some comps := by
  have hgroups : groupsOf c.n (8 * comps.length) ((wireBits comps).flatMap pt.pick) = (wireBits comps).map pt.pick := by
    rw [Nat.mul_comm 8, ← wireBits_length]
    exact groupsOf_flatMap (pick_length h) _
  have hbytes : groupsOf 8 comps.length (wireBits comps) = comps.map wireBitsOfByte :=
    groupsOf_flatMap wireBitsOfByte_length comps
  rw [decodeContent, hgroups, mapM_bitOfGroup_pick h, Option.map_some, hbytes, List.map_map]
  simp [Function.comp_def, packByte_wireBitsOfByte]

/-- After the ENCODING step the content cells read as the patterns of the components' bits. -/
theorem AboutToEncode.step_readContent {s t : State} {pt : PatternTable} {r : Request} {rest : List Event}
    (h : AboutToEncode s pt r rest) (ht : step s = .next t) :
    Memory.readRange t.buf s.cfg.lead.length (content s.cfg r.pixels) =
      .ok ((wireBits (componentsOf s r)).flatMap pt.pick) := by
  obtain ⟨hsound, -⟩ := h.sizes
  obtain ⟨-, hcells⟩ := Memory.readRange_ok (h.step_readRange ht)
  have hlen : ((wireBits (componentsOf s r)).flatMap pt.pick).length = content s.cfg r.pixels := by
    rw [contentBytes_length hsound, componentsOf_length h.stream, content, Nat.mul_comm 3]
  rw [← hlen]
  refine Memory.readRange_eq fun j v hj => ?_
  have hlt := (List.getElem?_eq_some_iff.mp hj).1
  have hcell := hcells (s.cfg.lead.length + j) v (by
    rw [frameBytes_eq_wireBits, List.getElem?_append_right (Nat.le_add_right _ _), Nat.add_sub_cancel_left,
      List.getElem?_append_left hlt, hj])
  rwa [Nat.zero_add] at hcell

/-- Settles O32: the content reads back as the frame's components, which are the stream's for SHOW and zero for CLEAR. -/
theorem contentReadsBack : Obligations.ContentReadsBack := by
  intro s pt r rest h
  obtain ⟨t, hstep, -⟩ := h.step_buf
  have hback := decodeContent_wireBits h.sizes.1 (componentsOf s r)
  rw [componentsOf_length h.stream] at hback
  refine ⟨t, _, hstep, h.step_readContent hstep, fun hkind => ?_, fun hkind => ?_⟩
  · rw [hback, h.componentsOf_show hkind]
  · rw [hback, componentsOf_clear s hkind]

end Sys2Proof.Machine
end

section
/-! PROOF. The assembler (R77): the word of a command by the rule's formula, and the texts of SHOW and CLEAR read and
encoded. -/

namespace Sys2Proof.Machine

/-! ### The rule's formula -/

/-- A word of format C is its fields shifted to their places (R70). -/
theorem formatC_eq_or (n : BitVec 20) (x : BitVec 8) (o : BitVec 4) :
    formatC n x o = (n.zeroExtend 32 <<< 12) ||| (x.zeroExtend 32 <<< 4) ||| o.zeroExtend 32 := by
  refine BitVec.eq_of_getLsbD_eq fun i hi => ?_
  simp only [formatC, BitVec.getLsbD_append, BitVec.getLsbD_or, BitVec.getLsbD_shiftLeft, BitVec.getLsbD_setWidth, hi,
    decide_true, Bool.true_and]
  by_cases h4 : i < 4
  · simp [h4, show i < 12 by omega]
  · have ho : o.getLsbD i = false := BitVec.getLsbD_of_ge o i (Nat.not_lt.mp h4)
    by_cases h12 : i < 12
    · simp [h4, h12, ho, show i - 4 < 8 by omega, show i - 4 < 32 by omega]
    · have hx : x.getLsbD (i - 4) = false := BitVec.getLsbD_of_ge x _ (by omega)
      simp [h4, h12, ho, hx, show ¬ i - 4 < 8 by omega, show i - 4 - 8 = i - 12 by omega, show i - 12 < 32 by omega]

theorem encode_showFrame (n : BitVec 20) (x : BitVec 8) :
    encode (.showFrame n x) = (n.zeroExtend 32 <<< 12) ||| (x.zeroExtend 32 <<< 4) ||| 0x2 :=
  formatC_eq_or n x 0x2

theorem encode_clear (n : BitVec 20) : encode (.clear n) = (n.zeroExtend 32 <<< 12) ||| 0x3 := by
  have hscale : ((0 : BitVec 8).zeroExtend 32 <<< 4 : Word) = 0#32 := by decide
  have hword := formatC_eq_or n 0 0x3
  rw [hscale, BitVec.or_zero] at hword
  exact hword

/-! ### Texts -/

/-- An operand in range is the same number in the word. -/
theorem zeroExtend_ofNat {w n : Nat} (hw : w ≤ 32) (hn : n < 2 ^ w) :
    (BitVec.ofNat w n).zeroExtend 32 = BitVec.ofNat 32 n := BitVec.setWidth_ofNat_of_le_of_lt hw hn

/-- The text of SHOW with two numbers assembles to the formula's word where both are in range, and to none otherwise. -/
theorem assemble_showText {n x : Nat} {nText xText : List Char} (hn : NumberSpells nText n) (hx : NumberSpells xText x) :
    assemble (showText nText xText) =
      if n ≤ 1048575 ∧ x ≤ 255 then some ((BitVec.ofNat 32 n <<< 12) ||| (BitVec.ofNat 32 x <<< 4) ||| 0x2) else none := by
  rw [assemble, parseCommand_showText hn.comma_not_mem, operandValue_spells 20 hn, operandValue_spells 8 hx]
  by_cases hn' : n < 2 ^ 20
  · by_cases hx' : x < 2 ^ 8
    · rw [if_pos hn', if_pos hx', if_pos (by omega)]
      simp only [Option.map_some, encode_showFrame, zeroExtend_ofNat (w := 20) (by decide) hn',
        zeroExtend_ofNat (w := 8) (by decide) hx']
    · rw [if_pos hn', if_neg hx', if_neg (by omega)]
      rfl
  · rw [if_neg hn', if_neg (show ¬(n ≤ 1048575 ∧ x ≤ 255) by omega)]
    rfl

/-- The text of CLEAR with a number assembles to the formula's word where it is in range, and to none otherwise. -/
theorem assemble_clearText {n : Nat} {nText : List Char} (hn : NumberSpells nText n) :
    assemble (clearText nText) = if n ≤ 1048575 then some ((BitVec.ofNat 32 n <<< 12) ||| 0x3) else none := by
  rw [assemble, parseCommand_clearText, operandValue_spells 20 hn]
  by_cases hn' : n < 2 ^ 20
  · rw [if_pos hn', if_pos (by omega)]
    simp only [Option.map_some, encode_clear, zeroExtend_ofNat (w := 20) (by decide) hn']
  · rw [if_neg hn', if_neg (by omega)]
    rfl

/-- A text that assembles spells a command, and its word decodes to it. -/
theorem decode_of_assemble {text : List Char} {w : Word} (h : assemble text = some w) :
    ∃ i, decode w = .ok i ∧ parseCommand text = some i := by
  obtain ⟨i, hparse, rfl⟩ := Option.map_eq_some_iff.mp h
  exact ⟨i, decodeOfEncode i, hparse⟩

/-- Settles O5: the formula is the format's fields in place, and the assembler reads exactly the four forms. -/
theorem assemblerEncodesCommands : Obligations.AssemblerEncodesCommands := by
  refine ⟨encode_showFrame, encode_clear, by decide, by decide, fun n x nText xText hn hx => assemble_showText hn hx,
    fun n nText hn => assemble_clearText hn, fun n text h => spells_of_mem_numerals h, by rfl, by rfl, fun text w h => ?_⟩
  obtain ⟨i, hdecode, hparse⟩ := decode_of_assemble h
  refine ⟨⟨i, hdecode, hparse⟩, ?_⟩
  obtain hinit | hmax | ⟨n, x, nText, xText, hn, hx, hn', hx', htext⟩ | ⟨n, nText, hn, hn', htext⟩ :=
    parseCommand_cases hparse
  · exact .inl hinit
  · exact .inr (.inl hmax)
  · exact .inr (.inr (.inl ⟨n, x, nText, xText, hn, hx, by omega, by omega, htext⟩))
  · exact .inr (.inr (.inr ⟨n, nText, hn, by omega, htext⟩))

end Sys2Proof.Machine
end

section
/-! PROOF. The scale (R145): each rule of the machine, run beside itself on the state with another scale, answers alike. -/

namespace Sys2Proof.Machine

/-- The state with another scale in its request, if it has one. -/
def withScale (y : BitVec 8) (s : State) : State := { s with req := s.req.map fun r => { r with scale := y } }

/-- The second state is the first, or the first with the scale `y`. -/
def AlikeInScale (y : BitVec 8) (s u : State) : Prop := u = s ∨ u = withScale y s

/-- Where the first answer is a next state, so is the second, and the two states are alike. -/
def AnswersAlike (y : BitVec 8) (a b : Answer) : Prop := ∀ t, a = .next t → ∃ u, b = .next u ∧ AlikeInScale y t u

/-- States that are alike differ in the request's scale alone. -/
theorem AlikeInScale.differs {y : BitVec 8} {t u : State} (h : AlikeInScale y t u) :
    { u with req := t.req } = t ∧ (u.req = t.req ∨ u.req = t.req.map fun r => { r with scale := y }) := by
  obtain rfl | rfl := h
  · exact ⟨rfl, .inl rfl⟩
  · exact ⟨rfl, .inr rfl⟩

theorem answersAlike_same (y : BitVec 8) (a : Answer) : AnswersAlike y a a := fun t ht => ⟨t, ht, .inl rfl⟩

theorem answersAlike_next (y : BitVec 8) (t : State) : AnswersAlike y (.next t) (.next (withScale y t)) := by
  rintro _ ⟨rfl⟩
  exact ⟨_, rfl, .inr rfl⟩

theorem answersAlike_of_ne_next {y : BitVec 8} {a : Answer} (b : Answer) (h : ∀ t, a ≠ .next t) : AnswersAlike y a b :=
  fun t ht => absurd ht (h t)

/-- A branch whose condition does not depend on the scale. -/
theorem answersAlike_ite {y : BitVec 8} {p : Prop} [Decidable p] {a a' b b' : Answer} (ha : AnswersAlike y a a')
    (hb : AnswersAlike y b b') : AnswersAlike y (if p then a else b) (if p then a' else b') := by
  split
  · exact ha
  · exact hb

/-! ### Commands -/

theorem answersAlike_whenReady {y : BitVec 8} {s : State} {d : Decoded} {rule : State → Answer}
    (h : AnswersAlike y (rule s) (rule (withScale y s))) :
    AnswersAlike y (whenReady s d rule) (whenReady (withScale y s) d rule) := by
  unfold whenReady
  exact answersAlike_ite h (answersAlike_next y s)

theorem answersAlike_whenUsable {y : BitVec 8} {s : State} {rule : State → Answer}
    (h : AnswersAlike y (rule s) (rule (withScale y s))) :
    AnswersAlike y (whenUsable s rule) (whenUsable (withScale y s) rule) := by
  unfold whenUsable
  exact answersAlike_ite (answersAlike_next y (raiseError s .unusable)) h

theorem answersAlike_whenFits {y : BitVec 8} {s : State} {n : BitVec 20} {rule : State → Answer}
    (h : AnswersAlike y (rule s) (rule (withScale y s))) :
    AnswersAlike y (whenFits s n rule) (whenFits (withScale y s) n rule) := by
  unfold whenFits
  exact answersAlike_ite (answersAlike_next y (raiseError s .overrun)) h

/-- INIT reads no request. -/
theorem execInit_withScale (y : BitVec 8) (s : State) : AnswersAlike y (execInit s) (execInit (withScale y s)) := by
  refine answersAlike_whenReady (answersAlike_ite (answersAlike_next y (raiseError s .state)) ?_)
  have hcfg : (withScale y s).cfg = s.cfg := rfl
  rw [hcfg]
  cases initPatterns s.cfg with
  | none => exact answersAlike_next y (raiseError (enterCfgError s) .cfgPattern)
  | some pt =>
    have hinit : initWithPatterns (withScale y s) pt = withScale y (initWithPatterns s pt) := by
      unfold initWithPatterns
      exact (apply_ite (withScale y) _ (raiseError (enterCfgError s) .cfgCapacity) (respond (configureBlock s pt) .ok 0)).symm
    simp only [hinit]
    exact answersAlike_next y (initWithPatterns s pt)

/-- No command reads the scale of an earlier request; SHOW and CLEAR put their own in its place. -/
theorem exec_withScale (i : Instr) (y : BitVec 8) (s : State) : AnswersAlike y (exec i s) (exec i (withScale y s)) := by
  cases i with
  | init => exact execInit_withScale y s
  | showFrame n x =>
    show AnswersAlike y (execShow n x s) (execShow n x (withScale y s))
    refine answersAlike_whenReady ?_
    refine answersAlike_whenUsable ?_
    refine answersAlike_whenFits ?_
    exact answersAlike_same y (.next (latchShow s n x))
  | clear n =>
    show AnswersAlike y (execClear n s) (execClear n (withScale y s))
    refine answersAlike_whenReady ?_
    refine answersAlike_whenUsable ?_
    refine answersAlike_whenFits ?_
    exact answersAlike_same y (.next (latchClear s n))
  | maxRate =>
    show AnswersAlike y (execMaxRate s) (execMaxRate (withScale y s))
    refine answersAlike_whenReady ?_
    refine answersAlike_whenUsable ?_
    exact answersAlike_next y (respond s .ok s.cfg.maxRefreshRate)

/-- SHOWs of one count pass the same gates and latch requests that differ in the scale. -/
theorem exec_showFrame_scale (s : State) (n : BitVec 20) (x y : BitVec 8) :
    AnswersAlike y (exec (.showFrame n x) s) (exec (.showFrame n y) s) := by
  show AnswersAlike y (execShow n x s) (execShow n y s)
  unfold execShow whenReady whenUsable whenFits
  refine answersAlike_ite (answersAlike_ite (answersAlike_same y _) (answersAlike_ite (answersAlike_same y _) ?_))
    (answersAlike_same y _)
  exact answersAlike_next y (latchShow s n x)

/-- Whether the word leaves CMD does not depend on the scale. -/
theorem releaseHeld_withScale (y : BitVec 8) (s : State) (k : Nat) (d : Decoded) :
    releaseHeld (withScale y s) k d = withScale y (releaseHeld s k d) := by
  unfold releaseHeld
  exact (apply_ite (withScale y) _ { s with held := s.held.eraseIdx k } s).symm

/-- The acceptance of a held word reads no request. -/
theorem acceptCommand_withScale (k : Nat) (y : BitVec 8) (s : State) :
    AnswersAlike y (acceptCommand s k) (acceptCommand (withScale y s) k) := by
  have hheld : (withScale y s).held = s.held := rfl
  rw [acceptCommand, acceptCommand, hheld]
  cases s.held[k]? with
  | none => exact answersAlike_next y s
  | some w =>
    simp only [releaseHeld_withScale]
    cases decode w with
    | ok i => exact exec_withScale i y (releaseHeld s k (.ok i))
    | error r =>
      show AnswersAlike y (illegalCommand r _) (illegalCommand r _)
      refine answersAlike_whenReady ?_
      exact answersAlike_next y (raiseError (releaseHeld s k (.error r)) .illegal)

/-! ### The other events -/

/-- `Send` reads no request. -/
theorem send_withScale (y : BitVec 8) (s : State) (len : Nat) : AnswersAlike y (send s len) (send (withScale y s) len) := by
  have hbuf : (withScale y s).buf = s.buf := rfl
  intro t ht
  obtain ⟨bytes, hread, rfl⟩ := send_cases ht
  exact ⟨_, by rw [send, hbuf, hread]; rfl, .inr rfl⟩

/-- The end of the frame reads no request. -/
theorem endEncoding_withScale (y : BitVec 8) (s : State) :
    AnswersAlike y (endEncoding s) (endEncoding (withScale y s)) :=
  answersAlike_ite (answersAlike_next y (finishEmptyFrame s)) (send_withScale y s s.xferLen.toNat)

/-- Of its request the end of the writes reads the count alone. -/
theorem writeFrame_withScale (y : BitVec 8) (s : State) (r : Request) (out : Encoder × Option Nat) :
    AnswersAlike y (writeFrame s r out) (writeFrame (withScale y s) { r with scale := y } out) := by
  obtain ⟨e, _ | p⟩ := out
  · exact endEncoding_withScale y { s with
      buf := e.buf
      pos := e.pos
      contentLen := BitVec.ofNat 32 (content s.cfg r.pixels)
      xferLen := BitVec.ofNat 32 e.cur }
  · exact answersAlike_next y { s with buf := e.buf, pos := e.pos, fault := some (.streamUnderrun p) }

/-- The ENCODING step reads the kind and the count of its request alone. -/
theorem encodeStep_withScale (y : BitVec 8) (s : State) : AnswersAlike y (encodeStep s) (encodeStep (withScale y s)) := by
  cases hpt : s.pt with
  | none => exact answersAlike_of_ne_next _ fun t ht => by simp [encodeStep, hpt] at ht
  | some pt =>
    cases hr : s.req with
    | none => exact answersAlike_of_ne_next _ fun t ht => by simp [encodeStep, hpt, hr] at ht
    | some r =>
      have hpt' : (withScale y s).pt = some pt := hpt
      have hr' : (withScale y s).req = some { r with scale := y } := by rw [withScale, hr]; rfl
      simp only [encodeStep, hpt, hr, hpt', hr']
      exact answersAlike_ite (answersAlike_same y (.fault (.outsideBuffer (xlen s.cfg r.pixels))))
        (writeFrame_withScale y s r (encodeFrame s.cfg pt r s.stream s.pos s.buf))

/-- The host's accesses read no request. -/
theorem hostEvent_withScale (a : Access) (y : BitVec 8) (s : State) :
    AnswersAlike y (hostEvent s a) (hostEvent (withScale y s) a) := by
  have hreg : ∀ offset, readableRegister (withScale y s) offset = readableRegister s offset := fun _ => rfl
  have hcfg : (withScale y s).cfg = s.cfg := rfl
  have hrefused := answersAlike_same y (.refused .undefinedAccess)
  simp only [hostEvent, accessRegister, hreg, hcfg]
  cases windowOffset s.cfg a.addr with
  | none => exact hrefused
  | some offset =>
    refine answersAlike_ite hrefused ?_
    cases a.kind with
    | write => exact answersAlike_ite (answersAlike_next y { s with held := s.held ++ [a.data] }) hrefused
    | read =>
      cases readableRegister s offset with
      | none => exact hrefused
      | some v => exact answersAlike_next y { s with readData := some v }

theorem answersAlike_blockStep {y : BitVec 8} {s : State} {a b : Answer} (h : AnswersAlike y a b) :
    AnswersAlike y (blockStep s a) (blockStep (withScale y s) b) := by
  have hf : (withScale y s).fault = s.fault := rfl
  rw [blockStep, blockStep, hf]
  split
  · exact answersAlike_same y _
  · exact h

/-- The peripheral's signals read no request. -/
theorem transferDoneEvent_withScale (y : BitVec 8) (s : State) :
    transferDoneEvent (withScale y s) = withScale y (transferDoneEvent s) := by
  unfold transferDoneEvent
  exact (apply_ite (withScale y) _ (completeTransfer s) s).symm

theorem transferFailedEvent_withScale (y : BitVec 8) (s : State) :
    transferFailedEvent (withScale y s) = withScale y (transferFailedEvent s) := by
  unfold transferFailedEvent
  exact (apply_ite (withScale y) _ (failTransfer s) s).symm

/-- Every event on states that differ in the scale alone. -/
theorem takeEvent_withScale (e : Event) (y : BitVec 8) (s : State) :
    AnswersAlike y (takeEvent e s) (takeEvent e (withScale y s)) := by
  cases e with
  | host a => exact hostEvent_withScale a y s
  | accept k => exact answersAlike_blockStep (acceptCommand_withScale k y s)
  | endCooldown =>
    exact answersAlike_blockStep (answersAlike_ite (answersAlike_next y (leaveCooldown s)) (answersAlike_next y s))
  | encode => exact answersAlike_blockStep (answersAlike_ite (encodeStep_withScale y s) (answersAlike_next y s))
  | transferDone =>
    simp only [takeEvent, transferDoneEvent_withScale]
    exact answersAlike_next y (transferDoneEvent s)
  | transferFailed =>
    simp only [takeEvent, transferFailedEvent_withScale]
    exact answersAlike_next y (transferFailedEvent s)
  | colorLayer stream => exact answersAlike_next y { s with offer := stream }
  | clock ticks => exact answersAlike_next y (advanceClock s ticks)
  | reset => exact answersAlike_next y (resetBlock s)

/-- Every step of states that differ in the scale alone. -/
theorem step_withScale (y : BitVec 8) (s : State) : AnswersAlike y (step s) (step (withScale y s)) := by
  cases hc : s.cfg.wellFormed with
  | false =>
    rw [step_illFormed hc]
    exact answersAlike_of_ne_next _ fun t ht => by cases ht
  | true =>
    have hc' : (withScale y s).cfg.wellFormed = true := hc
    cases hs : s.schedule with
    | nil =>
      have hs' : (withScale y s).schedule = [] := hs
      rw [step_wait hc hs, step_wait hc' hs']
      exact answersAlike_next y s
    | cons e rest =>
      have hs' : (withScale y s).schedule = e :: rest := hs
      rw [step_event hc hs, step_event hc' hs']
      exact takeEvent_withScale e y { s with schedule := rest }

/-- Settles O21: both runs answer alike, and states that are alike differ in the scale alone. -/
theorem scaleHasNoEffect : Obligations.ScaleHasNoEffect := by
  refine ⟨fun s t n x y ht => ?_, fun s t r y hr ht => ?_⟩
  · obtain ⟨u, hu, halike⟩ := exec_showFrame_scale s n x y t ht
    exact ⟨u, hu, halike.differs⟩
  · obtain ⟨u, hu, halike⟩ := step_withScale y s t ht
    rw [withScale, hr] at hu
    exact ⟨u, hu, halike.differs⟩

end Sys2Proof.Machine
end

section
/-! PROOF. Presenting a word (R140): the accepted command is run, a command the block is not ready for is held, and no
command stops the machine. -/

namespace Sys2Proof.Machine

/-- The rule of a word the block is not ready for changes nothing. -/
theorem performCommand_held {s : State} {d : Decoded} (h : ready s.st d = false) : performCommand d s = .next s := by
  cases d with
  | error r => rw [performCommand, illegalCommand, whenReady_held h]
  | ok i =>
    obtain ⟨-, hexec⟩ | ⟨hready, -⟩ := exec_cases i s
    · exact hexec
    · rw [h] at hready
      cases hready

/-- Settles O6: the rule of a word that decodes to a command is the command's meaning. -/
theorem stepRunsTheAcceptedCommand : Obligations.StepRunsTheAcceptedCommand := by
  intro s k w rest i h hd
  rw [h.step_eq, hd]
  cases hr : ready s.st (.ok i) with
  | true =>
    rw [releaseHeld_ready (by exact hr), if_pos rfl]
    rfl
  | false =>
    rw [releaseHeld_held (by exact hr), if_neg Bool.false_ne_true]
    rfl

/-- In COOLDOWN the block is ready for no SHOW and no CLEAR. -/
theorem not_ready_cooldown {st : SeqState} {d : Decoded} (h : st = .cooldown) (hd : isFrameCommand d = true) :
    ready st d = false := by
  rw [h, ready, hd]
  rfl

/-- Settles O8: a word the block is not ready for stays at CMD, and its rule changes nothing. -/
theorem unreadyCommandIsHeld : Obligations.UnreadyCommandIsHeld := by
  intro s k w rest h hst
  have hr : ready s.st (decode w) = false := by
    obtain hbusy | ⟨hcool, n, sc, hd | hd⟩ := hst
    · exact not_ready_busy hbusy (decode w)
    · exact not_ready_cooldown hcool (by rw [hd]; rfl)
    · exact not_ready_cooldown hcool (by rw [hd]; rfl)
  refine ⟨?_, fun i hd => ?_⟩
  · rw [h.step_eq, releaseHeld_held (by exact hr)]
    exact performCommand_held hr
  · rw [hd] at hr
    exact performCommand_held hr

/-- Settles O10: held or accepted, a command answers a next state. -/
theorem everyCommandAnswersNext : Obligations.EveryCommandAnswersNext := by
  intro i s
  obtain ⟨-, hheld⟩ | ⟨-, t, ht, -⟩ := exec_cases i s
  · exact ⟨s, hheld⟩
  · exact ⟨t, ht⟩

end Sys2Proof.Machine
end

section
/-! PROOF. INIT (R107, R202): what it does in each state, by the patterns its configuration gives and the capacity. -/

namespace Sys2Proof.Machine

/-! ### The patterns of a configuration, by its mode -/

theorem initPatterns_const {c : Config} (h : c.patMode = .const) : initPatterns c = constPatterns c := by
  rw [initPatterns, h]

theorem initPatterns_derive {c : Config} (h : c.patMode = .derive) : initPatterns c = build c := by
  rw [initPatterns, h]

theorem constPatterns_eq_none {c : Config} (h : popcount c.oneConst ≤ popcount c.zeroConst) : constPatterns c = none :=
  if_neg (Nat.not_lt.mpr h)

/-- A build fails where a count misses its target or ONE's is not the larger. -/
theorem build_eq_none {c : Config}
    (h : c.tol < natDist (kOf c.n c.bitPeriod c.tHighOne * c.bitPeriod) c.tHighOne ∨
      c.tol < natDist (kOf c.n c.bitPeriod c.tHighZero * c.bitPeriod) c.tHighZero ∨
      kOf c.n c.bitPeriod c.tHighOne ≤ kOf c.n c.bitPeriod c.tHighZero) : build c = none := by
  refine if_neg ?_
  rintro ⟨hone, hzero, hlt⟩
  omega

/-! ### INIT -/

/-- INIT in UNCONFIGURED reads the patterns first. -/
theorem exec_init_unconfigured {s : State} (hst : s.st = .unconfigured) :
    exec .init s =
      .next ((initPatterns s.cfg).elim (raiseError (enterCfgError s) .cfgPattern) (initWithPatterns s)) := by
  have hready : ready s.st (.ok .init) = true := by rw [hst]; rfl
  show execInit s = _
  rw [execInit, whenReady_ready hready, if_neg (not_not_intro hst)]
  cases initPatterns s.cfg <;> rfl

theorem exec_init_badPatterns {s : State} (hst : s.st = .unconfigured) (hpt : initPatterns s.cfg = none) :
    exec .init s = .next (raiseError (enterCfgError s) .cfgPattern) := by
  rw [exec_init_unconfigured hst, hpt, Option.elim_none]

theorem exec_init_tooSmall {s : State} {pt : PatternTable} (hst : s.st = .unconfigured)
    (hpt : initPatterns s.cfg = some pt) (hcap : s.cfg.bufBytes < required s.cfg) :
    exec .init s = .next (raiseError (enterCfgError s) .cfgCapacity) := by
  rw [exec_init_unconfigured hst, hpt]
  exact congrArg Host.Outcome.next (if_pos hcap)

theorem exec_init_configured {s : State} {pt : PatternTable} (hst : s.st = .unconfigured)
    (hpt : initPatterns s.cfg = some pt) (hcap : required s.cfg ≤ s.cfg.bufBytes) :
    exec .init s = .next (respond (configureBlock s pt) .ok 0) := by
  rw [exec_init_unconfigured hst, hpt]
  exact congrArg Host.Outcome.next (if_neg (Nat.not_lt.mpr hcap))

theorem exec_init_again {s : State} (hst : s.st = .idle ∨ s.st = .cooldown ∨ s.st = .cfgError) :
    exec .init s = .next (raiseError s .state) := by
  have hready : ready s.st (.ok .init) = true := by
    rcases hst with h | h | h <;> rw [h] <;> rfl
  have hne : s.st ≠ .unconfigured := by
    rcases hst with h | h | h <;> rw [h] <;> decide
  show execInit s = _
  rw [execInit, whenReady_ready hready, if_pos hne]

/-- Settles O11: the constants are the patterns where ONE has more high bits. -/
theorem initFromConstants : Obligations.InitFromConstants := fun _ hst hmode hlt hcap =>
  exec_init_configured hst ((initPatterns_const hmode).trans (constPatterns_eq_some_iff.mpr ⟨hlt, rfl⟩)) hcap

/-- Settles O12: the build succeeds where both counts are on target and ONE's is the larger. -/
theorem initFromDerivation : Obligations.InitFromDerivation := fun _ hst hmode hone hzero hlt hcap =>
  exec_init_configured hst ((initPatterns_derive hmode).trans (build_eq_some_iff.mpr ⟨⟨hone, hzero, hlt⟩, rfl⟩)) hcap

/-- Settles O13: the state is looked at first, then the patterns, then the capacity. -/
theorem initErrorsInOrder : Obligations.InitErrorsInOrder := by
  refine fun s => ⟨fun hst => exec_init_again hst, fun hst hbad => ?_, fun hst hgood hcap => ?_⟩
  · refine exec_init_badPatterns hst ?_
    obtain ⟨hmode, hle⟩ | ⟨hmode, hfail⟩ := hbad
    · exact (initPatterns_const hmode).trans (constPatterns_eq_none hle)
    · exact (initPatterns_derive hmode).trans (build_eq_none hfail)
  · obtain ⟨hmode, hlt⟩ | ⟨hmode, hmeets⟩ := hgood
    · exact exec_init_tooSmall hst ((initPatterns_const hmode).trans (constPatterns_eq_some_iff.mpr ⟨hlt, rfl⟩)) hcap
    · exact exec_init_tooSmall hst ((initPatterns_derive hmode).trans (build_eq_some_iff.mpr ⟨hmeets, rfl⟩)) hcap

end Sys2Proof.Machine
end

section
/-! PROOF. SHOW, CLEAR and MAXRATE (R142, R143, R153): the gates passed, and what every command leaves unchanged. -/

namespace Sys2Proof.Machine

/-- An idle block lets a count that fits through all three gates (R140, R141, R144). -/
theorem whenReady_whenUsable_fits {s : State} (h : s.st = .idle) {n : BitVec 20} (hn : n.toNat ≤ s.cfg.maxLeds)
    (d : Decoded) (rule : State → Answer) :
    whenReady s d (fun s => whenUsable s fun s => whenFits s n rule) = rule s := by
  have hready : s.st.readyBit = true := readyBit_iff.mpr (.inr (.inl h))
  have husable : s.st.usable = true := by rw [h]; rfl
  rw [whenReady_ready (ready_of_readyBit hready d), whenUsable_usable husable, whenFits_fits hn]

/-- Settles O16: behind the gates SHOW latches. -/
theorem showLatchesItsRequest : Obligations.ShowLatchesItsRequest := fun _ nLeds scale h hn =>
  whenReady_whenUsable_fits h hn (.ok (.showFrame nLeds scale)) _

/-- Settles O17: behind the gates CLEAR latches. -/
theorem clearLatchesItsRequest : Obligations.ClearLatchesItsRequest := fun _ nLeds h hn =>
  whenReady_whenUsable_fits h hn (.ok (.clear nLeds)) _

/-- Settles O20: in IDLE and in COOLDOWN the block is ready for MAXRATE and usable. -/
theorem maxRateReportsTheParameter : Obligations.MaxRateReportsTheParameter := by
  intro s h
  have hready : ready s.st (.ok .maxRate) = true := by rcases h with h | h <;> rw [h] <;> rfl
  have husable : s.st.usable = true := by rcases h with h | h <;> rw [h] <;> rfl
  show execMaxRate s = _
  rw [execMaxRate, whenReady_ready hready, whenUsable_usable husable]
  rfl

/-- What a command answers: the same state, or its effect. -/
theorem exec_next {i : Instr} {s t : State} (h : exec i s = .next t) : t = s ∨ CommandEffect i s t := by
  obtain ⟨-, hheld⟩ | ⟨-, u, hu, heffect⟩ := exec_cases i s
  · cases hheld.symm.trans h
    exact .inl rfl
  · cases hu.symm.trans h
    exact .inr heffect

/-- No command writes the buffer. -/
theorem exec_buf {i : Instr} {s t : State} (h : exec i s = .next t) : t.buf = s.buf := by
  obtain rfl | heffect := exec_next h
  · rfl
  · obtain ⟨-, hbuf, -⟩ := heffect.keeps
    exact hbuf

/-- Settles O22: each effect of INIT writes only the registers named. -/
theorem initFrame : Obligations.InitFrame := by
  intro s t h
  refine ⟨fun a => by rw [exec_buf h], ?_⟩
  obtain rfl | heffect := exec_next h
  · rfl
  · cases heffect with
    | rejected | configError | configured => rfl

/-- Settles O23: each effect of SHOW writes only the registers named. -/
theorem showFrame : Obligations.ShowFrame := by
  intro s t nLeds scale h
  refine ⟨fun a => by rw [exec_buf h], ?_⟩
  obtain rfl | heffect := exec_next h
  · rfl
  · cases heffect with
    | rejected | showTaken => rfl

/-- Settles O24: each effect of CLEAR writes only the registers named. -/
theorem clearFrame : Obligations.ClearFrame := by
  intro s t nLeds h
  refine ⟨fun a => by rw [exec_buf h], ?_⟩
  obtain rfl | heffect := exec_next h
  · rfl
  · cases heffect with
    | rejected | clearTaken => rfl

/-- Settles O25: each effect of MAXRATE writes only the response. -/
theorem maxRateFrame : Obligations.MaxRateFrame := by
  intro s t h
  refine ⟨fun a => by rw [exec_buf h], ?_⟩
  obtain rfl | heffect := exec_next h
  · rfl
  · cases heffect with
    | rejected | rateReported => rfl

end Sys2Proof.Machine
end

section
/-! PROOF. The single events of the transfer, the timer, reset and the host's window (42_transfer_sequencer.md,
70_reset_and_hazards.md, R35): the step of each, enabled and not. -/

namespace Sys2Proof.Machine

/-! ### Completion and failure -/

/-- The last record of the log takes the outcome. -/
@[simp] theorem setLastOutcome_concat (log : List TxRecord) (r : TxRecord) (o : TxOutcome) :
    setLastOutcome (log ++ [r]) o = log ++ [{ r with outcome := o }] := by
  induction log with
  | nil => rfl
  | cons r' rest ih =>
    cases rest with
    | nil => rfl
    | cons r'' rest => exact congrArg (r' :: ·) ih

/-- The step of a failure in TRANSMITTING. -/
theorem step_transferFailed {s : State} {rest : List Event} (hc : s.cfg.wellFormed = true) (hst : s.st = .transmitting)
    (hs : s.schedule = .transferFailed :: rest) : step s = .next (failTransfer { s with schedule := rest }) := by
  rw [step_event hc hs]
  exact congrArg Host.Outcome.next (if_pos hst)

/-- Outside TRANSMITTING the peripheral's signals are ignored (R240). -/
theorem step_signalIgnored {s : State} {e : Event} {rest : List Event} (hc : s.cfg.wellFormed = true)
    (hst : s.st ≠ .transmitting) (hs : s.schedule = e :: rest) (he : e.ofPeripheral = true) :
    step s = .next { s with schedule := rest } := by
  rw [step_event hc hs]
  cases e with
  | transferDone | transferFailed => exact congrArg Host.Outcome.next (if_neg hst)
  | host | accept | endCooldown | encode | colorLayer | clock | reset => cases he

/-- Settles O38: the completion's one update, with the last record named. -/
theorem completionArmsTheHoldoff : Obligations.CompletionArmsTheHoldoff := by
  refine fun s rest log r hc hs => ⟨fun hst hlog => ?_, fun hst => step_signalIgnored hc hst hs rfl⟩
  rw [step_transferDone hc hst hs, ← setLastOutcome_concat, ← hlog]
  rfl

/-- Settles O39: the failure's one update, with the last record named; what may have reached the line is any first part of
the bytes. -/
theorem failureReturnsToIdle : Obligations.FailureReturnsToIdle := by
  refine ⟨fun s rest log r hc hs => ⟨fun hst hlog => ?_, fun hst => step_signalIgnored hc hst hs rfl⟩,
    fun sent line => List.isPrefixOf_iff_prefix⟩
  rw [step_transferFailed hc hst hs, ← setLastOutcome_concat, ← hlog]
  rfl

/-! ### COOLDOWN's end, and reset -/

/-- The step of an unmarked block that is to end COOLDOWN. -/
theorem step_endCooldown {s : State} {rest : List Event} (hc : s.cfg.wellFormed = true) (hf : s.fault = none)
    (hs : s.schedule = .endCooldown :: rest) :
    step s = if s.st = .cooldown ∧ s.deadline ≤ s.now then .next (leaveCooldown { s with schedule := rest })
      else .next { s with schedule := rest } := by
  rw [step_event hc hs]
  exact blockStep_unmarked hf _

/-- Settles O40: the event is enabled in COOLDOWN from the deadline on. -/
theorem cooldownEndsAtTheDeadline : Obligations.CooldownEndsAtTheDeadline := by
  intro s rest hc hf hs
  rw [step_endCooldown hc hf hs]
  refine ⟨fun hst hd => if_pos ⟨hst, hd⟩, fun _ hd => if_neg ?_, fun hst => if_neg ?_⟩
  · rintro ⟨-, hover⟩
    omega
  · rintro ⟨hcool, -⟩
    exact hst hcool

/-- Settles O41: the reset event's one update. -/
theorem resetKeepsTheOutside : Obligations.ResetKeepsTheOutside := fun _ _ hc hs => step_event hc hs

/-- Settles O42: the start state's fields, and STATUS as they show in it. -/
theorem resetValues : Obligations.ResetValues := fun c =>
  ⟨rfl, rfl, fun a => Memory.read_nil a, rfl, rfl, rfl, rfl, rfl, rfl, rfl, rfl, rfl, rfl, rfl, rfl, statusWord_resetWith c⟩

/-! ### The host's window -/

/-- A 32-bit read of a readable register returns it. -/
theorem accessRegister_read {s : State} {a : Access} {offset : Nat} {v : Word} (hk : a.kind = .read) (hb : a.bits = 32)
    (hv : readableRegister s offset = some v) : accessRegister s a offset = .next { s with readData := some v } := by
  simp only [accessRegister, hb, hk, hv, ne_eq, not_true_eq_false, if_false]

/-- A 32-bit write of CMD holds its word. -/
theorem accessRegister_write {s : State} {a : Access} (hk : a.kind = .write) (hb : a.bits = 32) :
    accessRegister s a 0 = .next { s with held := s.held ++ [a.data] } := by
  simp only [accessRegister, hb, hk, ne_eq, not_true_eq_false, if_false, if_true]

/-- The step of a host access at an offset of the window. -/
theorem step_host {s : State} {a : Access} {rest : List Event} {offset : Nat} (hc : s.cfg.wellFormed = true)
    (hs : s.schedule = .host a :: rest) (ha : a.addr = s.cfg.regBase + offset) :
    step s = accessRegister { s with schedule := rest } a offset := by
  rw [step_event hc hs]
  show hostEvent { s with schedule := rest } a = _
  rw [hostEvent, ha, windowOffset_base_add]

theorem step_read {s : State} {a : Access} {rest : List Event} {offset : Nat} {v : Word} (hc : s.cfg.wellFormed = true)
    (hs : s.schedule = .host a :: rest) (hk : a.kind = .read) (hb : a.bits = 32) (ha : a.addr = s.cfg.regBase + offset)
    (hv : readableRegister s offset = some v) : step s = .next { s with schedule := rest, readData := some v } :=
  (step_host hc hs ha).trans (accessRegister_read hk hb hv)

/-- Settles O45: the three readable registers at their offsets. -/
theorem readsReturnRegisters : Obligations.ReadsReturnRegisters := fun _ _ _ hc hs hk hb =>
  ⟨fun ha => step_read hc hs hk hb ha rfl, fun ha => step_read hc hs hk hb ha rfl,
    fun ha => step_read hc hs hk hb ha rfl⟩

/-- Settles O46: a write at the window's base is a write of CMD. -/
theorem commandWriteIsHeld : Obligations.CommandWriteIsHeld := fun _ _ _ hc hs hk hb ha =>
  (step_host (offset := 0) hc hs ha).trans (accessRegister_write hk hb)

/-! ### Disabled events -/

/-- Settles O60: each event that is not enabled leaves the state, and the other two set their one field. -/
theorem disabledEventsChangeNothing : Obligations.DisabledEventsChangeNothing := by
  refine fun s rest hc => ⟨fun hs => step_wait hc hs, fun stream hs => step_event hc hs, fun ticks hs => step_event hc hs,
    fun k hf hs hk => ?_, fun hf hs hst => ?_⟩
  · have hnone : acceptCommand { s with schedule := rest } k = .next { s with schedule := rest } := by
      rw [acceptCommand, hk]
    exact (step_event hc hs).trans ((blockStep_unmarked hf _).trans hnone)
  · exact (step_event hc hs).trans ((blockStep_unmarked hf _).trans (if_neg hst))

end Sys2Proof.Machine
end
